-- ==== Sys2Proof/Word.lean ====
section
/-! DEFINITION. Word.lean: the value types of the block, all unsigned (spec/00_scope.md R7). -/

namespace Sys2Proof

/-- An 8-bit value: a general register, a timer, a byte of memory (R10, R18, R19, R30). -/
abbrev Byte := BitVec 8

/-- A 16-bit value: an opcode, I, PC, a stack slot, the keypad latch (R13–R17, R50). -/
abbrev Word := BitVec 16

/-- The number of a general register, 0 (V0) to 15 (VF): every value a 4-bit X or Y field can have (R10, R51). -/
abbrev RegIdx := Fin 16

/-- The NNN field: a 12-bit address (R51, R52). -/
abbrev Addr12 := BitVec 12

/-- The N field: a 4-bit count (R51, R52). -/
abbrev Nibble := BitVec 4

end Sys2Proof
end

