-- ==== Sys2Proof/Syntax.lean ====
section
/-! DEFINITION. Syntax.lean: the 35 instructions, one constructor for each row of spec/opcode_table.json, in the table's
order (spec/30_encoding.md R53–R58, R63). `x` and `y` are the register fields, `nn` and `n` the immediates (R51). -/

namespace Sys2Proof

/-- An instruction with its operand fields (R53). -/
inductive Instr where
  /-- `00E0` CLS (R120) -/
  | cls
  /-- `00EE` RET (R78) -/
  | ret
  /-- `0NNN` SYS addr (R75) -/
  | sys (n : Addr12)
  /-- `1NNN` JP addr (R76) -/
  | jp (n : Addr12)
  /-- `2NNN` CALL addr (R77) -/
  | call (n : Addr12)
  /-- `3XNN` SE Vx, byte (R80) -/
  | seImm (x : RegIdx) (nn : Byte)
  /-- `4XNN` SNE Vx, byte (R81) -/
  | sneImm (x : RegIdx) (nn : Byte)
  /-- `5XY0` SE Vx, Vy (R82) -/
  | seReg (x y : RegIdx)
  /-- `6XNN` LD Vx, byte (R91) -/
  | ldImm (x : RegIdx) (nn : Byte)
  /-- `7XNN` ADD Vx, byte (R92) -/
  | addImm (x : RegIdx) (nn : Byte)
  /-- `8XY0` LD Vx, Vy (R93) -/
  | ldReg (x y : RegIdx)
  /-- `8XY1` OR Vx, Vy (R94) -/
  | orReg (x y : RegIdx)
  /-- `8XY2` AND Vx, Vy (R95) -/
  | andReg (x y : RegIdx)
  /-- `8XY3` XOR Vx, Vy (R96) -/
  | xorReg (x y : RegIdx)
  /-- `8XY4` ADD Vx, Vy (R97) -/
  | addReg (x y : RegIdx)
  /-- `8XY5` SUB Vx, Vy (R98) -/
  | sub (x y : RegIdx)
  /-- `8XY6` SHR Vx, Vy (R99) -/
  | shr (x y : RegIdx)
  /-- `8XY7` SUBN Vx, Vy (R100) -/
  | subn (x y : RegIdx)
  /-- `8XYE` SHL Vx, Vy (R101) -/
  | shl (x y : RegIdx)
  /-- `9XY0` SNE Vx, Vy (R83) -/
  | sneReg (x y : RegIdx)
  /-- `ANNN` LD I, addr (R110) -/
  | ldI (n : Addr12)
  /-- `BNNN` JP V0, addr (R79) -/
  | jpV0 (n : Addr12)
  /-- `CXNN` RND Vx, byte (R102) -/
  | rnd (x : RegIdx) (nn : Byte)
  /-- `DXYN` DRW Vx, Vy, nibble (R121) -/
  | drw (x y : RegIdx) (n : Nibble)
  /-- `EX9E` SKP Vx (R130) -/
  | skp (x : RegIdx)
  /-- `EXA1` SKNP Vx (R131) -/
  | sknp (x : RegIdx)
  /-- `FX07` LD Vx, DT (R133) -/
  | ldVxDt (x : RegIdx)
  /-- `FX0A` LD Vx, K (R132) -/
  | ldVxK (x : RegIdx)
  /-- `FX15` LD DT, Vx (R134) -/
  | ldDtVx (x : RegIdx)
  /-- `FX18` LD ST, Vx (R135) -/
  | ldStVx (x : RegIdx)
  /-- `FX1E` ADD I, Vx (R111) -/
  | addI (x : RegIdx)
  /-- `FX29` LD F, Vx (R112) -/
  | ldF (x : RegIdx)
  /-- `FX33` LD B, Vx (R113) -/
  | ldB (x : RegIdx)
  /-- `FX55` LD [I], Vx: store V0..Vx (R114) -/
  | ldStore (x : RegIdx)
  /-- `FX65` LD Vx, [I]: load V0..Vx (R115) -/
  | ldLoad (x : RegIdx)
deriving DecidableEq, Repr

end Sys2Proof
end

