-- ==== Sys2Proof/WellFormed.lean ====
section
/-! DEFINITION. WellFormed.lean: which terms of `Instr` are instructions of the block.

The operand types already hold what every field can be (R51). The one instruction whose encoding space is not the whole of
its field is SYS: the low byte of its NNN is none of 0x00, 0xE0 and 0xEE (spec/30_encoding.md R54). -/

namespace Sys2Proof

/-- The low byte of NNN. -/
def sysLowByte (n : Addr12) : Byte := n.extractLsb' 0 8

/-- `0x0n00` is Invalid, not SYS (R54). -/
def sysLowByteNonzero (n : Addr12) : Bool := sysLowByte n != 0x00#8

/-- `0x00E0` is CLS and `0x0nE0` is Invalid, neither is SYS (R54, D12). -/
def sysLowByteNotClear (n : Addr12) : Bool := sysLowByte n != 0xE0#8

/-- `0x00EE` is RET and `0x0nEE` is Invalid, neither is SYS (R54, D12). -/
def sysLowByteNotReturn (n : Addr12) : Bool := sysLowByte n != 0xEE#8

/-- The check of well-formedness, one line for each constructor. -/
def Instr.wf : Instr → Bool
  | .sys n => sysLowByteNonzero n && sysLowByteNotClear n && sysLowByteNotReturn n
  | .cls => true
  | .ret => true
  | .jp _ => true
  | .call _ => true
  | .seImm _ _ => true
  | .sneImm _ _ => true
  | .seReg _ _ => true
  | .ldImm _ _ => true
  | .addImm _ _ => true
  | .ldReg _ _ => true
  | .orReg _ _ => true
  | .andReg _ _ => true
  | .xorReg _ _ => true
  | .addReg _ _ => true
  | .sub _ _ => true
  | .shr _ _ => true
  | .subn _ _ => true
  | .shl _ _ => true
  | .sneReg _ _ => true
  | .ldI _ => true
  | .jpV0 _ => true
  | .rnd _ _ => true
  | .drw _ _ _ => true
  | .skp _ => true
  | .sknp _ => true
  | .ldVxDt _ => true
  | .ldVxK _ => true
  | .ldDtVx _ => true
  | .ldStVx _ => true
  | .addI _ => true
  | .ldF _ => true
  | .ldB _ => true
  | .ldStore _ => true
  | .ldLoad _ => true

/-- An instruction of the block: a term some opcode decodes to (R53, R54). -/
abbrev WellFormed (i : Instr) : Prop := i.wf = true

end Sys2Proof
end

