-- ==== Sys2Proof/Decode.lean ====
section
/-! DEFINITION. Decode.lean: `Decode(op)` (spec/30_encoding.md R53–R58), total on every 16-bit word, and the encoder.

The encodings of the rows that opcode_table.json marks `gk` are the spec's own general knowledge (GK2, log 11). -/

namespace Sys2Proof

/-! ### The fields of an opcode (R51) -/

/-- `T = op[15:12]` -/
def fieldT (op : Word) : BitVec 4 := op.extractLsb' 12 4

/-- `X = op[11:8]` -/
def fieldX (op : Word) : RegIdx := (op.extractLsb' 8 4).toFin

/-- `Y = op[7:4]` -/
def fieldY (op : Word) : RegIdx := (op.extractLsb' 4 4).toFin

/-- `N = op[3:0]` -/
def fieldN (op : Word) : Nibble := op.extractLsb' 0 4

/-- `NN = op[7:0]` -/
def fieldNN (op : Word) : Byte := op.extractLsb' 0 8

/-- `NNN = op[11:0]` -/
def fieldNNN (op : Word) : Addr12 := op.extractLsb' 0 12

/-! ### Decoding (R53–R58) -/

/-- Why a byte sequence is no instruction. -/
inductive Reject where
  /-- `Decode(op) = Invalid`: no operation matches the opcode (R53, R59). -/
  | invalidOpcode (op : Word)
  /-- Fewer than the two bytes that every instruction has (R50). -/
  | truncated
deriving DecidableEq, Repr

/-- What decoding answers: an instruction with its fields, or a rejection by name (R53). -/
inductive Decoded where
  | instr (i : Instr)
  | rejected (r : Reject)
deriving DecidableEq, Repr

/-- The answer `Invalid` for an opcode. -/
def invalid (op : Word) : Decoded := .rejected (.invalidOpcode op)

/-- Group 0 (R54). -/
def decodeGroup0 (op : Word) : Decoded :=
  if op = 0x00E0#16 then .instr .cls
  else if op = 0x00EE#16 then .instr .ret
  else if fieldNN op = 0x00#8 then invalid op
  else if fieldNN op = 0xE0#8 ∨ fieldNN op = 0xEE#8 then invalid op
  else .instr (.sys (fieldNNN op))

/-- Group 5 (R55): the low nibble is checked. -/
def decodeGroup5 (op : Word) : Decoded :=
  if fieldN op = 0x0#4 then .instr (.seReg (fieldX op) (fieldY op)) else invalid op

/-- Group 9 (R55): the low nibble is checked. -/
def decodeGroup9 (op : Word) : Decoded :=
  if fieldN op = 0x0#4 then .instr (.sneReg (fieldX op) (fieldY op)) else invalid op

/-- Group 8, by N (R56). -/
def decodeGroup8 (op : Word) : Decoded :=
  match fieldN op with
  | 0x0#4 => .instr (.ldReg (fieldX op) (fieldY op))
  | 0x1#4 => .instr (.orReg (fieldX op) (fieldY op))
  | 0x2#4 => .instr (.andReg (fieldX op) (fieldY op))
  | 0x3#4 => .instr (.xorReg (fieldX op) (fieldY op))
  | 0x4#4 => .instr (.addReg (fieldX op) (fieldY op))
  | 0x5#4 => .instr (.sub (fieldX op) (fieldY op))
  | 0x6#4 => .instr (.shr (fieldX op) (fieldY op))
  | 0x7#4 => .instr (.subn (fieldX op) (fieldY op))
  | 0xE#4 => .instr (.shl (fieldX op) (fieldY op))
  | _ => invalid op

/-- Group E, by NN (R57). -/
def decodeGroupE (op : Word) : Decoded :=
  match fieldNN op with
  | 0x9E#8 => .instr (.skp (fieldX op))
  | 0xA1#8 => .instr (.sknp (fieldX op))
  | _ => invalid op

/-- Group F, by NN (R58). -/
def decodeGroupF (op : Word) : Decoded :=
  match fieldNN op with
  | 0x07#8 => .instr (.ldVxDt (fieldX op))
  | 0x0A#8 => .instr (.ldVxK (fieldX op))
  | 0x15#8 => .instr (.ldDtVx (fieldX op))
  | 0x18#8 => .instr (.ldStVx (fieldX op))
  | 0x1E#8 => .instr (.addI (fieldX op))
  | 0x29#8 => .instr (.ldF (fieldX op))
  | 0x33#8 => .instr (.ldB (fieldX op))
  | 0x55#8 => .instr (.ldStore (fieldX op))
  | 0x65#8 => .instr (.ldLoad (fieldX op))
  | _ => invalid op

/-- `Decode(op)` (R53), by the top nibble. The last line is T = 0xF, the one value left. -/
def decode (op : Word) : Decoded :=
  match fieldT op with
  | 0x0#4 => decodeGroup0 op
  | 0x1#4 => .instr (.jp (fieldNNN op))
  | 0x2#4 => .instr (.call (fieldNNN op))
  | 0x3#4 => .instr (.seImm (fieldX op) (fieldNN op))
  | 0x4#4 => .instr (.sneImm (fieldX op) (fieldNN op))
  | 0x5#4 => decodeGroup5 op
  | 0x6#4 => .instr (.ldImm (fieldX op) (fieldNN op))
  | 0x7#4 => .instr (.addImm (fieldX op) (fieldNN op))
  | 0x8#4 => decodeGroup8 op
  | 0x9#4 => decodeGroup9 op
  | 0xA#4 => .instr (.ldI (fieldNNN op))
  | 0xB#4 => .instr (.jpV0 (fieldNNN op))
  | 0xC#4 => .instr (.rnd (fieldX op) (fieldNN op))
  | 0xD#4 => .instr (.drw (fieldX op) (fieldY op) (fieldN op))
  | 0xE#4 => decodeGroupE op
  | _ => decodeGroupF op

/-! ### Bytes and words -/

/-- The opcode of two bytes in memory order: the first is bits 15:8 (R32, R33). -/
def opcodeOfBytes (hi lo : Byte) : Word := hi ++ lo

/-- Bits 15:8 of an opcode: the byte at the lower address (R32). -/
def highByte (op : Word) : Byte := op.extractLsb' 8 8

/-- Bits 7:0 of an opcode: the byte at the higher address (R32). -/
def lowByte (op : Word) : Byte := op.extractLsb' 0 8

/-- The decoder on bytes as they stand in memory, any number of them: the first two are the instruction (R50). -/
def decodeBytes : List Byte → Decoded
  | hi :: lo :: _ => decode (opcodeOfBytes hi lo)
  | [_] => .rejected .truncated
  | [] => .rejected .truncated

/-! ### Encoding, by the six formats of R50 -/

/-- Format `NNN`. -/
def formNNN (t : BitVec 4) (n : Addr12) : Word := t ++ n

/-- Format `XNN`. -/
def formXNN (t : BitVec 4) (x : RegIdx) (nn : Byte) : Word := (t ++ BitVec.ofFin (w := 4) x) ++ nn

/-- Formats `XY` (with the function nibble as `n`) and `XYN`. -/
def formXYN (t : BitVec 4) (x y : RegIdx) (n : Nibble) : Word :=
  ((t ++ BitVec.ofFin (w := 4) x) ++ BitVec.ofFin (w := 4) y) ++ n

/-- Format `X`, with its function byte. -/
def formX (t : BitVec 4) (x : RegIdx) (f : Byte) : Word := formXNN t x f

/-- The opcode of an instruction (R50, R53–R58; spec/opcode_table.json). -/
def encode : Instr → Word
  | .cls => 0x00E0#16
  | .ret => 0x00EE#16
  | .sys n => formNNN 0x0#4 n
  | .jp n => formNNN 0x1#4 n
  | .call n => formNNN 0x2#4 n
  | .seImm x nn => formXNN 0x3#4 x nn
  | .sneImm x nn => formXNN 0x4#4 x nn
  | .seReg x y => formXYN 0x5#4 x y 0x0#4
  | .ldImm x nn => formXNN 0x6#4 x nn
  | .addImm x nn => formXNN 0x7#4 x nn
  | .ldReg x y => formXYN 0x8#4 x y 0x0#4
  | .orReg x y => formXYN 0x8#4 x y 0x1#4
  | .andReg x y => formXYN 0x8#4 x y 0x2#4
  | .xorReg x y => formXYN 0x8#4 x y 0x3#4
  | .addReg x y => formXYN 0x8#4 x y 0x4#4
  | .sub x y => formXYN 0x8#4 x y 0x5#4
  | .shr x y => formXYN 0x8#4 x y 0x6#4
  | .subn x y => formXYN 0x8#4 x y 0x7#4
  | .shl x y => formXYN 0x8#4 x y 0xE#4
  | .sneReg x y => formXYN 0x9#4 x y 0x0#4
  | .ldI n => formNNN 0xA#4 n
  | .jpV0 n => formNNN 0xB#4 n
  | .rnd x nn => formXNN 0xC#4 x nn
  | .drw x y n => formXYN 0xD#4 x y n
  | .skp x => formX 0xE#4 x 0x9E#8
  | .sknp x => formX 0xE#4 x 0xA1#8
  | .ldVxDt x => formX 0xF#4 x 0x07#8
  | .ldVxK x => formX 0xF#4 x 0x0A#8
  | .ldDtVx x => formX 0xF#4 x 0x15#8
  | .ldStVx x => formX 0xF#4 x 0x18#8
  | .addI x => formX 0xF#4 x 0x1E#8
  | .ldF x => formX 0xF#4 x 0x29#8
  | .ldB x => formX 0xF#4 x 0x33#8
  | .ldStore x => formX 0xF#4 x 0x55#8
  | .ldLoad x => formX 0xF#4 x 0x65#8

/-- The bytes of an opcode in memory order, big-endian (R32, R33). -/
def opcodeBytes (op : Word) : List Byte := [highByte op, lowByte op]

/-! ### The opcode table's numbering of an instruction's bits -/

/-- The opcode whose bits spec/opcode_table.json numbers as `w`: bit 0 is the least significant bit of the one 16-bit word
(R7, R50); the bits from `nbits` on are 0 (log 19). -/
def tableOpcode (nbits w : Nat) : Word := BitVec.ofNat 16 (w % 2 ^ nbits)

/-- The instruction the decoder reads from a row's word, laid out as the block stores it. -/
def decodeTableWord (nbits w : Nat) : Option Instr :=
  match decodeBytes (opcodeBytes (tableOpcode nbits w)) with
  | .instr i => some i
  | .rejected _ => none

end Sys2Proof
end

