-- ==== Sys2Proof/Config.lean ====
section
/-! DEFINITION. Config.lean: the parameters the spec leaves open (spec/00_scope.md R5) and the free values.

`Config` holds the two parameters that are plain data. A machine carries its parameters in the field `State.config`, which
no step and no transaction changes, so that a statement about all states is a statement about all their values
(DESIGN CHOICE, logs 3 and 4). The random draw is a free value: a constant without a body (log 5). The free value of the
state after a fault is declared beside the operation that uses it, in Machine/Ops.lean, since it has type State (log 6). -/

namespace Sys2Proof

/-- `SKNP_CLEAR`: when EXA1 clears the keypad latch (R5, R131, D11). -/
inductive SknpClear where
  /-- The latch is cleared when the skip is taken (the default). -/
  | onSkip
  /-- The latch is cleared when the key is pressed, so when the skip is not taken. -/
  | onPressed
  /-- EXA1 never clears the latch. -/
  | never
deriving DecidableEq, Repr, Inhabited

/-- The parameters of the block that the spec marks as *model arguments* and that are plain data (R5). -/
structure Config where
  /-- `FONT`: the 80 bytes that `initialize` writes at addresses 0 to 79 (R162). -/
  font : Vector Byte 80
  /-- `SKNP_CLEAR` (R131). -/
  sknpClear : SknpClear
deriving DecidableEq, Repr, Inhabited

/-- `RandomDraw`: the byte that the n-th draw gives (R5, R102, D18). A FREE VALUE: it has no body, so nothing can be proved
about any byte of it, and what is proved holds for every draw (log 5). -/
opaque Config.randomDraw : Nat → Byte

end Sys2Proof
end

