-- ==== Sys2Proof/Machine/Defaults.lean ====
section
/-! DEFINITION. Machine/Defaults.lean: the spec's default value of each parameter (spec/00_scope.md R5). -/

namespace Sys2Proof.Machine

/-- The default `FONT`: the 16 glyphs of 5 bytes, digit d at 5·d (R162). The bytes are the spec's own general knowledge
(GK5, D17; log 3): a claim about them is a claim about this default, not about the block. -/
def defaultFont : Vector Byte 80 := #v[
  0xF0, 0x90, 0x90, 0x90, 0xF0,
  0x20, 0x60, 0x20, 0x20, 0x70,
  0xF0, 0x10, 0xF0, 0x80, 0xF0,
  0xF0, 0x10, 0xF0, 0x10, 0xF0,
  0x90, 0x90, 0xF0, 0x10, 0x10,
  0xF0, 0x80, 0xF0, 0x10, 0xF0,
  0xF0, 0x80, 0xF0, 0x90, 0xF0,
  0xF0, 0x10, 0x20, 0x40, 0x40,
  0xF0, 0x90, 0xF0, 0x90, 0xF0,
  0xF0, 0x90, 0xF0, 0x10, 0xF0,
  0xF0, 0x90, 0xF0, 0x90, 0x90,
  0xE0, 0x90, 0xE0, 0x90, 0xE0,
  0xF0, 0x80, 0x80, 0x80, 0xF0,
  0xE0, 0x90, 0x90, 0x90, 0xE0,
  0xF0, 0x80, 0xF0, 0x80, 0xF0,
  0xF0, 0x80, 0xF0, 0x80, 0x80]

/-- The default parameters: the default font, and `SKNP_CLEAR = OnSkip` (R5, R131, D11; log 4). -/
def defaultConfig : Config := { font := defaultFont, sknpClear := .onSkip }

/-- `PROG_BASE`, the entry point (R5, R163). -/
def entryPoint : Word := 0x200#16

end Sys2Proof.Machine
end

