-- ==== Sys2Proof/Machine/Memory.lean ====
section
/-! DEFINITION. Machine/Memory.lean: the contents of MEM (spec/20_memory.md R30) as a list of (address, byte) pairs in one
canonical form, and its raw reads and writes. The bounds check of R31 is in Machine/Ops.lean. -/

namespace Sys2Proof.Machine

/-- The contents of MEM: the addresses that do not read as `unlistedByte`, in rising order (see `Memory.wf`). -/
abbrev Memory := List Host.Cell

/-- What an unlisted address reads as: every byte is 0 at creation (R25) and where `initialize` puts neither the font nor
the program (R160). DEDUCED, safe (log 1). -/
def unlistedByte : Byte := 0x00#8

/-- The form below holds from address `lo` on: addresses rise strictly, stay below 4096 (R30), and no listed byte is the
one an unlisted address reads as. -/
def Memory.wfFrom : Nat → Memory → Bool
  | _, [] => true
  | lo, (a, b) :: m => decide (lo ≤ a) && decide (a < 4096) && (b != unlistedByte) && Memory.wfFrom (a + 1) m

/-- The canonical form of memory: two memories with the same bytes are the same list. -/
def Memory.wf (m : Memory) : Bool := Memory.wfFrom 0 m

/-- The byte at an address. -/
def Memory.read : Memory → Nat → Byte
  | [], _ => unlistedByte
  | (k, b) :: m, a => if k = a then b else Memory.read m a

/-- Puts a byte before a memory, unless it is what the address reads as anyway. -/
def Memory.put (a : Nat) (v : Byte) (m : Memory) : Memory :=
  if v = unlistedByte then m else (a, v) :: m

/-- Writes one byte, keeping the canonical form. -/
def Memory.write : Memory → Nat → Byte → Memory
  | [], a, v => Memory.put a v []
  | (k, b) :: m, a, v =>
    if a < k then Memory.put a v ((k, b) :: m)
    else if a = k then Memory.put a v m
    else (k, b) :: Memory.write m a v

/-- The bytes `bs` from address `base` on, in canonical form. -/
def Memory.cells : Nat → List Byte → Memory
  | _, [] => []
  | base, b :: bs => Memory.put base b (Memory.cells (base + 1) bs)

/-- MEM after `initialize`: zero, then the font at 0, then the program at 0x200 (R37, R160). -/
def Memory.image (font program : List Byte) : Memory :=
  Memory.cells 0 font ++ Memory.cells 0x200 program

end Sys2Proof.Machine
end

