-- ==== Sys2Proof/Machine/State.lean ====
section
/-! DEFINITION. Machine/State.lean: the whole state of the block (spec/10_state.md R10–R23), the ways a step can stop, the
state at creation (R25) and the state after reset (spec/70_reset_and_hazards.md R160). -/

namespace Sys2Proof.Machine

/-- The faults (spec/60_exceptions.md R140, R141). The first five are the source's reported errors; the last four are the
spec's reading of what the source calls undefined or does not address (log 8). -/
inductive Fault where
  /-- Code 0. Raised by the transaction `initialize` on a program longer than 3584 bytes, never by a step (R161). Safe: the
  spec names it. -/
  | programTooLarge
  /-- Code 1. Raised by fetch when PC + 1 ≥ 4096 (R71). Safe: the spec names it. -/
  | outOfBounds (pc : Word)
  /-- Code 2. Raised by decode when `Decode(op) = Invalid` (R72). Safe: the spec names it; for 0x0nE0, 0x0nEE, 5XYN and
  9XYN it is the spec's decision (D12, D13). -/
  | invalidOpcode (op : Word)
  /-- Code 3. Raised by CALL when SP = 16 (R77). Safe: the spec names it. -/
  | stackOverflow
  /-- Code 4. Raised by RET when SP = 0 (R78). Safe: the spec names it. -/
  | stackUnderflow
  /-- Code 5. Raised by DRW, LD_B, LD_store and LD_load at an address ≥ 4096 (R31). Safe: undefined behaviour stops. -/
  | memoryOutOfRange (addr : Nat)
  /-- Code 6. Raised by ADD_I when I + Vx > 0xFFFF (R111). Safe: undefined behaviour stops. -/
  | indexOverflow (sum : Nat)
  /-- Code 7. Raised by LD_F when Vx ≥ 16 (R112). Safe: undefined behaviour stops. -/
  | fontDigitOutOfRange (d : Byte)
  /-- Code 8. Raised by SKP and SKNP when Vx ≥ 16 (R130, R131). Safe: there is no bit to test. -/
  | keyIndexOutOfRange (k : Byte)
deriving DecidableEq, Repr, Inhabited

/-- The reference codes of R140 and R141. No rule depends on them (D31). -/
def Fault.code : Fault → Nat
  | .programTooLarge => 0
  | .outOfBounds _ => 1
  | .invalidOpcode _ => 2
  | .stackOverflow => 3
  | .stackUnderflow => 4
  | .memoryOutOfRange _ => 5
  | .indexOverflow _ => 6
  | .fontDigitOutOfRange _ => 7
  | .keyIndexOutOfRange _ => 8

/-- Why a transaction is refused: it has no effect and no result. -/
inductive Refusal where
  /-- An instruction without a meaning in this model, by its mnemonic. Raised by no arm of this model. Safe. -/
  | notModelled (mnemonic : String)
  /-- `step`, `tick_timers` and `press_key` on a block whose RUN is Faulted(e) (R70, R142, D5). Safe: the spec refuses. -/
  | blockFaulted (e : Fault)
  /-- `press_key(k)` with k ≥ 16 (R150, D21). Safe: the spec refuses. -/
  | keyOutOfRange (k : Nat)
deriving DecidableEq, Repr

/-- `RUN`, the run status (R22). -/
inductive RunStatus where
  | running
  | faulted (e : Fault)
deriving DecidableEq, Repr, Inhabited

/-- `DISP[r][c]`, row r in 0..31 and column c in 0..63; `true` is on (R20, R123). -/
abbrev Display := Vector (Vector Bool 64) 32

/-- Every pixel off. -/
def Display.blank : Display := Vector.replicate 32 (Vector.replicate 64 false)

/-- The whole state of the block (R10–R23), with the parameters it runs under and the model's own draw counter. -/
structure State where
  /-- V0 to VF (R10, R11). -/
  v : Vector Byte 16
  /-- I, the address register (R13). -/
  i : Word
  /-- PC, the program counter (R14). -/
  pc : Word
  /-- STACK, the call stack: slot k of 1..16 stands at position k - 1 (R15; log 10). -/
  stack : Vector Word 16
  /-- SP, the number of return addresses on the stack, 0..16 (R16, D35). -/
  sp : Fin 17
  /-- KEYS, the keypad latch: bit k is key k (R17). -/
  keys : Word
  /-- DT, the delay timer (R18). -/
  dt : Byte
  /-- ST, the sound timer (R19). -/
  st : Byte
  /-- DISP, the display buffer (R20). -/
  disp : Display
  /-- MEM, the memory (R21). -/
  mem : Memory
  /-- RUN, the run status (R22). -/
  run : RunStatus
  /-- The parameters the block runs under (R5). Nothing writes them (logs 3 and 4). -/
  config : Config
  /-- The model's own: how many free values have been used, so that the next one is fresh (log 5). -/
  draws : Nat
deriving DecidableEq, Repr, Inhabited

/-- The state at creation, before any `initialize`: every field zero, RUN = Running (R25). -/
def State.created (c : Config) : State :=
  { v := Vector.replicate 16 0, i := 0, pc := 0, stack := Vector.replicate 16 0, sp := 0, keys := 0, dt := 0, st := 0,
    disp := Display.blank, mem := [], run := .running, config := c, draws := 0 }

/-- The state after `initialize(p)` of a program that fits (R160), under the parameters `c`. -/
def State.initial (c : Config) (p : List Byte) : State :=
  { State.created c with mem := Memory.image c.font.toList p, pc := entryPoint }

/-- The machine right after reset: `initialize` of the empty program, under the spec's default parameters (R160; log 2). -/
def State.reset : State := State.initial defaultConfig []

end Sys2Proof.Machine
end

