-- ==== Sys2Proof/Machine/Flags.lean ====
section
/-! DEFINITION. Machine/Flags.lean: every value an instruction writes to VF as a flag (spec/41_alu.md R103, R121). Each is
1 or 0. -/

namespace Sys2Proof.Machine

/-- The flag byte of a condition. -/
def flagByte (c : Bool) : Byte := if c then 0x01#8 else 0x00#8

/-- 8XY4: the wrapped sum is less than the smaller operand (R97). -/
def addCarry (a b : Byte) : Byte := flagByte (decide ((a + b).toNat < min a.toNat b.toNat))

/-- 8XY5 as `noBorrow a b`, 8XY7 as `noBorrow b a`: the minuend is not less than the subtrahend (R98, R100). -/
def noBorrow (minuend subtrahend : Byte) : Byte := flagByte (decide (subtrahend.toNat ≤ minuend.toNat))

/-- 8XY6: the low bit, shifted out to the right (R99). -/
def shiftedOutLow (t : Byte) : Byte := flagByte (t.getLsbD 0)

/-- 8XYE: the high bit, shifted out to the left (R101). -/
def shiftedOutHigh (t : Byte) : Byte := flagByte (t.getLsbD 7)

end Sys2Proof.Machine
end

