-- ==== Sys2Proof/Machine/Operands.lean ====
section
/-! DEFINITION. Machine/Operands.lean: how operands are made from fields and registers. Nothing is sign-extended (R52). -/

namespace Sys2Proof.Machine

/-- `zext_16(NNN)` (R52). -/
def zextAddr (n : Addr12) : Word := n.setWidth 16

/-- `zext_16` of a byte (R79). -/
def zextByte (b : Byte) : Word := b.setWidth 16

/-- The I-relative address `I + k`, a mathematical integer: no wrap at 16 bits (R45). -/
def effectiveAddr (i : Word) (k : Nat) : Nat := i.toNat + k

/-- The column of a sprite's origin, `Vx mod 64` (R121). -/
def originColumn (b : Byte) : Nat := b.toNat % 64

/-- The row of a sprite's origin, `Vy mod 32` (R121). -/
def originRow (b : Byte) : Nat := b.toNat % 32

/-- Column j of a sprite byte is bit 7 - j (R122, D25; log 12). -/
def spriteBit (row : Byte) (j : Nat) : Bool := row.getLsbD (7 - j)

/-- The hundreds, tens and ones digits of a byte, in the order they are stored (R113). -/
def bcdDigits (b : Byte) : List Byte :=
  [BitVec.ofNat 8 (b.toNat / 100), BitVec.ofNat 8 (b.toNat / 10 % 10), BitVec.ofNat 8 (b.toNat % 10)]

/-- The keys in the order FX0A scans them, bit 0 upward (R132). -/
def scanOrder : List (Fin 16) := [0, 1, 2, 3, 4, 5, 6, 7, 8, 9, 10, 11, 12, 13, 14, 15]

/-- The least index of a set bit of the latch; 0 when there is none, which FX0A has excluded (R132). -/
def lowestKey (keys : Word) : Fin 16 := (scanOrder.find? fun k => keys.getLsbD k.val).getD 0

end Sys2Proof.Machine
end

