-- ==== Sys2Proof/Machine/Ops.lean ====
section
/-! DEFINITION. Machine/Ops.lean: the operations that the meanings of the instructions share: registers, the advance of PC,
memory accesses, the call stack, the display, and the entry into a fault. -/

namespace Sys2Proof.Machine

/-- What executing an instruction, or a step, answers. -/
abbrev Result := Host.Outcome State Fault Refusal

/-! ### General registers (R10, R11) -/

/-- `V[x]` -/
def State.readV (s : State) (x : RegIdx) : Byte := s.v[x.val]

/-- `V[x] <- b` -/
def State.writeV (s : State) (x : RegIdx) (b : Byte) : State := { s with v := s.v.set x.val b }

/-- The result to Vx, then the flag to VF: when x = F the flag is what stays (R90, D3; log 9). -/
def State.writeResultFlag (s : State) (x : RegIdx) (result flag : Byte) : State := (s.writeV x result).writeV 15 flag

/-! ### The advance phase (R73, R74) -/

/-- How an instruction that completes moves PC (R73). -/
inductive Advance where
  | next
  | skip
  | jump (t : Word)
  | wait
deriving DecidableEq, Repr

/-- `Advance(out)` (R74). In a step PC ≤ 4094, so the sums do not wrap (R71). -/
def State.advance (s : State) : Advance → State
  | .next => { s with pc := s.pc + 2 }
  | .skip => { s with pc := s.pc + 4 }
  | .jump t => { s with pc := t }
  | .wait => s

/-- The end of an instruction that completes. -/
def complete (s : State) (a : Advance) : Result := .next (s.advance a)

/-- The end of a conditional skip: Skip when the condition holds, else Next (R80–R83). -/
def skipIf (c : Bool) (s : State) : Result := complete s (if c then .skip else .next)

/-! ### Faults (R142, R143, R146) -/

/-- `raise e`: the step ends with the fault e. It saves no state and goes nowhere (R146). -/
def raise (e : Fault) : Result := .fault e

end Sys2Proof.Machine

/-- What every field holds after a fault, as the n-th free value used (R143). A FREE VALUE: it has no body, so nothing can
be proved about it (log 6). -/
opaque Sys2Proof.Config.faultResidue : Nat → Sys2Proof.Machine.State

namespace Sys2Proof.Machine

/-- Taking a fault, as the host sees the block afterwards: RUN <- Faulted(e), and every other field of the spec's state is
unspecified (R142, R143). The parameters stay, and the free value is used up. There is no handler and no return: only
`initialize` leaves this state (R146, R164). -/
def State.takeFault (s : State) (e : Fault) : State :=
  { Config.faultResidue s.draws with run := .faulted e, config := s.config, draws := s.draws + 1 }

/-! ### Memory accesses (R31, R32) -/

/-- `MemRead(addr, 1)` (R31). -/
def State.memRead (s : State) (addr : Nat) : Except Fault Byte :=
  if addr ≥ 4096 then .error (.memoryOutOfRange addr) else .ok (s.mem.read addr)

/-- `MemWrite(addr, 1, b)` (R31). -/
def State.memWrite (s : State) (addr : Nat) (b : Byte) : Except Fault State :=
  if addr ≥ 4096 then .error (.memoryOutOfRange addr) else .ok { s with mem := s.mem.write addr b }

/-- `MemWrite` of each byte in turn, at addr, addr + 1, …; the first address out of range faults (R113, R114). -/
def State.storeBytes : State → Nat → List Byte → Except Fault State
  | s, _, [] => .ok s
  | s, addr, b :: bs =>
    match s.memWrite addr b with
    | .error e => .error e
    | .ok s' => s'.storeBytes (addr + 1) bs

/-- `MemRead` of `n` bytes in turn, at addr, addr + 1, …; the first address out of range faults (R115, R121). -/
def State.loadBytes (s : State) (addr : Nat) : Nat → Except Fault (List Byte)
  | 0 => .ok []
  | n + 1 =>
    match s.memRead addr with
    | .error e => .error e
    | .ok b =>
      match s.loadBytes (addr + 1) n with
      | .error e => .error e
      | .ok bs => .ok (b :: bs)

/-- `Fetch16(PC)`: two bytes, the one at PC is bits 15:8 (R32). -/
def State.fetch16 (s : State) : Except Fault Word :=
  if s.pc.toNat + 1 ≥ 4096 then .error (.outOfBounds s.pc)
  else .ok (opcodeOfBytes (s.mem.read s.pc.toNat) (s.mem.read (s.pc.toNat + 1)))

/-! ### Blocks of registers (R114, R115) -/

/-- V0 to Vx, V0 first. -/
def State.regBlock (s : State) (x : RegIdx) : List Byte := s.v.toList.take (x.val + 1)

/-- Writes the bytes to Vk, Vk+1, …, in that order. -/
def State.writeBlock : State → Nat → List Byte → State
  | s, _, [] => s
  | s, k, b :: bs => (if h : k < 16 then s.writeV ⟨k, h⟩ b else s).writeBlock (k + 1) bs

/-! ### The call stack (R15, R16) -/

/-- `STACK[k]`, the slot numbered k, for k in 1..16. -/
def State.slot (s : State) (k : Nat) : Option Word := if k = 0 then none else s.stack[k - 1]?

/-- SP <- SP + 1, then STACK[SP] <- ret; `StackOverflow` when SP + 1 > 16 (R77). -/
def State.push (s : State) (ret : Word) : Except Fault State :=
  if h : s.sp.val + 1 > 16 then .error .stackOverflow
  else .ok { s with sp := ⟨s.sp.val + 1, by omega⟩, stack := s.stack.set s.sp.val ret (by omega) }

/-- STACK[SP], then SP <- SP - 1; `StackUnderflow` when SP = 0. The slot keeps its value (R78). -/
def State.pop (s : State) : Except Fault (Word × State) :=
  if h : s.sp.val = 0 then .error .stackUnderflow
  else .ok (s.stack[s.sp.val - 1]'(by omega), { s with sp := ⟨s.sp.val - 1, by omega⟩ })

/-! ### The display (R20, R121) -/

/-- `DISP[r][c]`, for r in 0..31 and c in 0..63. -/
def Display.pixel (d : Display) (r c : Nat) : Bool := if h : r < 32 ∧ c < 64 then d[r][c] else false

/-- `DISP[r][c] <- b`, for r in 0..31 and c in 0..63. -/
def Display.setPixel (d : Display) (r c : Nat) (b : Bool) : Display :=
  if h : r < 32 ∧ c < 64 then d.set r (d[r].set c b) else d

/-- The columns of a sprite byte in the order they are drawn (R121). -/
def spriteColumns : List Nat := [0, 1, 2, 3, 4, 5, 6, 7]

/-- The loop over the columns of one sprite row, drawn in row r from column ox: it breaks past column 63. The Bool is
`erased`, whether a pixel has gone from on to off (R121). -/
def Display.drawColumns (row : Byte) (r ox : Nat) : List Nat → Display × Bool → Display × Bool
  | [], acc => acc
  | j :: js, (d, erased) =>
    if ox + j > 63 then (d, erased)
    else
      let old := d.pixel r (ox + j)
      let new := old ^^ spriteBit row j
      Display.drawColumns row r ox js (d.setPixel r (ox + j) new, erased || (old && !new))

/-- The loop over the rows of a sprite, from row r on: it breaks past row 31 (R121). -/
def Display.drawRows (ox : Nat) : List Byte → Nat → Display × Bool → Display × Bool
  | [], _, acc => acc
  | row :: rows, r, acc =>
    if r > 31 then acc else Display.drawRows ox rows (r + 1) (Display.drawColumns row r ox spriteColumns acc)

/-- Draws a sprite with its origin at row oy and column ox: the new display, and `erased` (R121). -/
def Display.drawSprite (d : Display) (oy ox : Nat) (sprite : List Byte) : Display × Bool :=
  Display.drawRows ox sprite oy (d, false)

end Sys2Proof.Machine
end

