-- ==== Sys2Proof/Machine/Alu.lean ====
section
/-! DEFINITION. Machine/Alu.lean: arithmetic, logic, shifts and the random byte (spec/41_alu.md R90–R103). Each reads its
operands before it writes, and writes a flag last (R90). -/

namespace Sys2Proof.Machine

/-- `6XNN` LD (R91). -/
def execLdImm (x : RegIdx) (nn : Byte) (s : State) : Result := complete (s.writeV x nn) .next

/-- `7XNN` ADD: no flag (R92). -/
def execAddImm (x : RegIdx) (nn : Byte) (s : State) : Result := complete (s.writeV x (s.readV x + nn)) .next

/-- `8XY0` LD (R93). -/
def execLdReg (x y : RegIdx) (s : State) : Result := complete (s.writeV x (s.readV y)) .next

/-- `8XY1` OR: VF <- 0 (R94). -/
def execOrReg (x y : RegIdx) (s : State) : Result :=
  complete (s.writeResultFlag x (s.readV x ||| s.readV y) 0x00#8) .next

/-- `8XY2` AND: VF <- 0 (R95). -/
def execAndReg (x y : RegIdx) (s : State) : Result :=
  complete (s.writeResultFlag x (s.readV x &&& s.readV y) 0x00#8) .next

/-- `8XY3` XOR: VF <- 0 (R96). -/
def execXorReg (x y : RegIdx) (s : State) : Result :=
  complete (s.writeResultFlag x (s.readV x ^^^ s.readV y) 0x00#8) .next

/-- `8XY4` ADD: VF <- carry (R97). -/
def execAddReg (x y : RegIdx) (s : State) : Result :=
  complete (s.writeResultFlag x (s.readV x + s.readV y) (addCarry (s.readV x) (s.readV y))) .next

/-- `8XY5` SUB: Vx - Vy, VF <- no borrow (R98). -/
def execSub (x y : RegIdx) (s : State) : Result :=
  complete (s.writeResultFlag x (s.readV x - s.readV y) (noBorrow (s.readV x) (s.readV y))) .next

/-- `8XY6` SHR: Vx <- Vy >> 1, VF <- the bit shifted out (R99). -/
def execShr (x y : RegIdx) (s : State) : Result :=
  complete (s.writeResultFlag x (s.readV y >>> 1) (shiftedOutLow (s.readV y))) .next

/-- `8XY7` SUBN: Vy - Vx, VF <- no borrow (R100). -/
def execSubn (x y : RegIdx) (s : State) : Result :=
  complete (s.writeResultFlag x (s.readV y - s.readV x) (noBorrow (s.readV y) (s.readV x))) .next

/-- `8XYE` SHL: Vx <- Vy << 1, VF <- the bit shifted out (R101). -/
def execShl (x y : RegIdx) (s : State) : Result :=
  complete (s.writeResultFlag x (s.readV y <<< 1) (shiftedOutHigh (s.readV y))) .next

/-- `CXNN` RND: a free draw, masked; the next draw is a fresh one (R102, D18; log 5). -/
def execRnd (x : RegIdx) (nn : Byte) (s : State) : Result :=
  complete ({ s with draws := s.draws + 1 }.writeV x (Config.randomDraw s.draws &&& nn)) .next

end Sys2Proof.Machine
end

