-- ==== Sys2Proof/Machine/Control.lean ====
section
/-! DEFINITION. Machine/Control.lean: the system no-op, jumps, call and return, and the register-compare skips
(spec/40_control.md R75–R83). -/

namespace Sys2Proof.Machine

/-- `00EE` RET: PC becomes the address of the matching CALL, without + 2 (R78, C5; log 21). -/
def execRet (s : State) : Result :=
  match s.pop with
  | .error e => raise e
  | .ok (t, s') => complete s' (.jump t)

/-- `0NNN` SYS: a no-op that advances PC by 2; NNN is ignored (R75). -/
def execSys (_n : Addr12) (s : State) : Result := complete s .next

/-- `1NNN` JP (R76). -/
def execJp (n : Addr12) (s : State) : Result := complete s (.jump (zextAddr n))

/-- `2NNN` CALL: the address saved is the CALL's own (R77). -/
def execCall (n : Addr12) (s : State) : Result :=
  match s.push s.pc with
  | .error e => raise e
  | .ok s' => complete s' (.jump (zextAddr n))

/-- `BNNN` JP V0: the register added is always V0 (R79, D15). -/
def execJpV0 (n : Addr12) (s : State) : Result := complete s (.jump (zextAddr n + zextByte (s.readV 0)))

/-- `3XNN` SE (R80). -/
def execSeImm (x : RegIdx) (nn : Byte) (s : State) : Result := skipIf (s.readV x == nn) s

/-- `4XNN` SNE (R81). -/
def execSneImm (x : RegIdx) (nn : Byte) (s : State) : Result := skipIf (s.readV x != nn) s

/-- `5XY0` SE (R82). -/
def execSeReg (x y : RegIdx) (s : State) : Result := skipIf (s.readV x == s.readV y) s

/-- `9XY0` SNE (R83). -/
def execSneReg (x y : RegIdx) (s : State) : Result := skipIf (s.readV x != s.readV y) s

end Sys2Proof.Machine
end

