-- ==== Sys2Proof/Machine/Index.lean ====
section
/-! DEFINITION. Machine/Index.lean: the address register and the memory instructions (spec/42_memory_ops.md R110–R115). -/

namespace Sys2Proof.Machine

/-- `ANNN` LD I (R110). -/
def execLdI (n : Addr12) (s : State) : Result := complete { s with i := zextAddr n } .next

/-- `FX1E` ADD I: the sum must fit in 16 bits; VF is not written (R111, D8, D16). -/
def execAddI (x : RegIdx) (s : State) : Result :=
  if effectiveAddr s.i (s.readV x).toNat > 0xFFFF then raise (.indexOverflow (effectiveAddr s.i (s.readV x).toNat))
  else complete { s with i := BitVec.ofNat 16 (effectiveAddr s.i (s.readV x).toNat) } .next

/-- `FX29` LD F: the glyph of the digit in Vx (R112, D9). -/
def execLdF (x : RegIdx) (s : State) : Result :=
  if (s.readV x).toNat ≥ 16 then raise (.fontDigitOutOfRange (s.readV x))
  else complete { s with i := BitVec.ofNat 16 (5 * (s.readV x).toNat) } .next

/-- `FX33` LD B: three decimal digits at I, I + 1, I + 2; I is unchanged (R113). -/
def execLdB (x : RegIdx) (s : State) : Result :=
  match s.storeBytes (effectiveAddr s.i 0) (bcdDigits (s.readV x)) with
  | .error e => raise e
  | .ok s' => complete s' .next

/-- `FX55` LD [I], Vx: stores V0..Vx at I, then I <- I + x + 1 (R114). -/
def execLdStore (x : RegIdx) (s : State) : Result :=
  match s.storeBytes (effectiveAddr s.i 0) (s.regBlock x) with
  | .error e => raise e
  | .ok s' => complete { s' with i := BitVec.ofNat 16 (effectiveAddr s.i (x.val + 1)) } .next

/-- `FX65` LD Vx, [I]: loads V0..Vx from I, then I <- I + x + 1 (R115). -/
def execLdLoad (x : RegIdx) (s : State) : Result :=
  match s.loadBytes (effectiveAddr s.i 0) (x.val + 1) with
  | .error e => raise e
  | .ok bs => complete { s.writeBlock 0 bs with i := BitVec.ofNat 16 (effectiveAddr s.i (x.val + 1)) } .next

end Sys2Proof.Machine
end

