-- ==== Sys2Proof/Machine/Keypad.lean ====
section
/-! DEFINITION. Machine/Keypad.lean: the keypad and timer instructions (spec/44_keypad_timers.md R130–R135). -/

namespace Sys2Proof.Machine

/-- `EX9E` SKP: a taken skip clears the whole latch (R130, D10). -/
def execSkp (x : RegIdx) (s : State) : Result :=
  if (s.readV x).toNat ≥ 16 then raise (.keyIndexOutOfRange (s.readV x))
  else if s.keys.getLsbD (s.readV x).toNat then complete { s with keys := 0 } .skip
  else complete s .next

/-- `EXA1` SKNP: the parameter SKNP_CLEAR says when the latch is cleared (R131, D10, D11). -/
def execSknp (x : RegIdx) (s : State) : Result :=
  if (s.readV x).toNat ≥ 16 then raise (.keyIndexOutOfRange (s.readV x))
  else if s.keys.getLsbD (s.readV x).toNat then
    complete { s with keys := if s.config.sknpClear = .onPressed then 0 else s.keys } .next
  else complete { s with keys := if s.config.sknpClear = .onSkip then 0 else s.keys } .skip

/-- `FX0A` LD Vx, K: waits, changing nothing, while the latch is zero; else takes the lowest key and clears the whole
latch (R132). -/
def execLdVxK (x : RegIdx) (s : State) : Result :=
  if s.keys = 0 then complete s .wait
  else complete ({ s with keys := 0 }.writeV x (BitVec.ofNat 8 (lowestKey s.keys).val)) .next

/-- `FX07` LD Vx, DT (R133). -/
def execLdVxDt (x : RegIdx) (s : State) : Result := complete (s.writeV x s.dt) .next

/-- `FX15` LD DT, Vx (R134). -/
def execLdDtVx (x : RegIdx) (s : State) : Result := complete { s with dt := s.readV x } .next

/-- `FX18` LD ST, Vx (R135). -/
def execLdStVx (x : RegIdx) (s : State) : Result := complete { s with st := s.readV x } .next

end Sys2Proof.Machine
end

