-- ==== Sys2Proof/Machine/Screen.lean ====
section
/-! DEFINITION. Machine/Screen.lean: the instructions that write the display (spec/43_display.md R120, R121). -/

namespace Sys2Proof.Machine

/-- `00E0` CLS (R120). -/
def execCls (s : State) : Result := complete { s with disp := Display.blank } .next

/-- `DXYN` DRW: every sprite byte must be addressable, rows that would be clipped too, before any pixel is drawn (D7, log
13); the origin is computed from Vx and Vy before VF is written (R121). -/
def execDrw (x y : RegIdx) (n : Nibble) (s : State) : Result :=
  match s.loadBytes (effectiveAddr s.i 0) n.toNat with
  | .error e => raise e
  | .ok sprite =>
    let drawn := s.disp.drawSprite (originRow (s.readV y)) (originColumn (s.readV x)) sprite
    complete ({ s with disp := drawn.1 }.writeV 15 (flagByte drawn.2)) .next

end Sys2Proof.Machine
end

