-- ==== Sys2Proof/Machine/Step.lean ====
section
/-! DEFINITION. Machine/Step.lean: one step transaction (spec/40_control.md R70), and placing a word where it is fetched. -/

namespace Sys2Proof.Machine

/-- `step()` (R70–R74): fetch, decode, execute and advance. On a faulted block it is refused. A step that waits and one
that advances both answer `next`; the transaction in Machine/HostInterface.lean tells the two apart (log 16). -/
def step (s : State) : Host.Outcome State Fault Refusal :=
  match s.run with
  | .faulted e => .refused (.blockFaulted e)
  | .running =>
    match s.fetch16 with
    | .error e => raise e
    | .ok op =>
      match decode op with
      | .rejected _ => raise (.invalidOpcode op)
      | .instr i => exec i s

/-- The state `s` with an opcode stored where `step` fetches next, big-endian (R32). It stands for the host's `initialize`
with a program (log 14). A step that could fetch nothing is made able to: RUN is Running, and a PC past the last fetchable
address is the entry point (log 15). -/
def State.withFetchWord (s : State) (nbits w : Nat) : State :=
  let pc := if s.pc.toNat + 1 < 4096 then s.pc else entryPoint
  { s with
    run := .running
    pc := pc
    mem := (s.mem.write pc.toNat (highByte (tableOpcode nbits w))).write (pc.toNat + 1)
      (lowByte (tableOpcode nbits w)) }

end Sys2Proof.Machine
end

