-- ==== Sys2Proof/Machine/HostInterface.lean ====
section
/-! DEFINITION. Machine/HostInterface.lean: the block's whole interface, six transactions, each atomic
(spec/60_exceptions.md R148–R153; spec/70_reset_and_hazards.md R160–R164). -/

namespace Sys2Proof.Machine

/-- A transaction of the host (R148). -/
inductive Transaction where
  /-- `initialize(p)` (R160) -/
  | init (p : List Byte)
  /-- `step()` (R70) -/
  | step
  /-- `tick_timers()` (R149) -/
  | tickTimers
  /-- `press_key(k)` (R150) -/
  | pressKey (k : Nat)
  /-- `read_display()` (R151) -/
  | readDisplay
  /-- `read_timers()` (R152) -/
  | readTimers
deriving DecidableEq, Repr

/-- What a transaction answers to the host (R148). -/
inductive Reply where
  /-- `initialize` succeeded. -/
  | ok
  /-- A step completed its instruction (R70). -/
  | advanced
  /-- A step found FX0A with an empty latch and changed nothing (R70, R132). -/
  | waiting
  /-- A step ended with a fault (R142), or `initialize` with `ProgramTooLarge` (R161). -/
  | fault (e : Fault)
  /-- `tick_timers` or `press_key` is done; they have no output. -/
  | done
  /-- The display, a snapshot (R151). -/
  | display (d : Display)
  /-- The two timers (R152). -/
  | timers (dt st : Byte)
  /-- Any value: a read of a faulted block, whose values are unspecified (R143; log 7). -/
  | anyValue
  /-- The transaction is refused: it has no meaning here (R70, R142, R150). -/
  | refused (r : Refusal)
deriving DecidableEq, Repr

/-- `initialize(p)` (R160, R161, R164): from any state. The parameters stay, and the draws go on, so that a second run does
not see the first run's random bytes again (log 5). -/
def initBlock (p : List Byte) (s : State) : State × Reply :=
  if p.length > 3584 then (s, .fault .programTooLarge)
  else ({ State.initial s.config p with draws := s.draws }, .ok)

/-- Whether the next step finds FX0A with an empty latch (R132). -/
def State.waits (s : State) : Bool :=
  match s.fetch16 with
  | .error _ => false
  | .ok op =>
    match decode op with
    | .instr (.ldVxK _) => s.keys == 0
    | _ => false

/-- `step()` as the host sees it (R70, R142). -/
def stepBlock (s : State) : State × Reply :=
  match step s with
  | .next t => (t, if s.waits then .waiting else .advanced)
  | .fault e => (s.takeFault e, .fault e)
  | .refused r => (s, .refused r)

/-- One tick of one timer: down by one, floored at zero (R149). -/
def tickDown (b : Byte) : Byte := if b.toNat > 0 then b - 1 else 0

/-- `tick_timers()` (R149, R142). -/
def tickBlock (s : State) : State × Reply :=
  match s.run with
  | .faulted e => (s, .refused (.blockFaulted e))
  | .running => ({ s with dt := tickDown s.dt, st := tickDown s.st }, .done)

/-- The latch with bit k set (R150). -/
def setKey (keys : Word) (k : Nat) : Word := keys ||| (1#16 <<< k)

/-- `press_key(k)` (R150, R142, D21). -/
def pressBlock (k : Nat) (s : State) : State × Reply :=
  match s.run with
  | .faulted e => (s, .refused (.blockFaulted e))
  | .running => if k ≥ 16 then (s, .refused (.keyOutOfRange k)) else ({ s with keys := setKey s.keys k }, .done)

/-- `read_display()` (R151, R143). -/
def readDisplayBlock (s : State) : State × Reply :=
  match s.run with
  | .faulted _ => (s, .anyValue)
  | .running => (s, .display s.disp)

/-- `read_timers()` (R152, R143). -/
def readTimersBlock (s : State) : State × Reply :=
  match s.run with
  | .faulted _ => (s, .anyValue)
  | .running => (s, .timers s.dt s.st)

/-- One transaction: the state it leaves and its answer (R148). -/
def transact (t : Transaction) (s : State) : State × Reply :=
  match t with
  | .init p => initBlock p s
  | .step => stepBlock s
  | .tickTimers => tickBlock s
  | .pressKey k => pressBlock k s
  | .readDisplay => readDisplayBlock s
  | .readTimers => readTimersBlock s

/-- Any finite sequence of transactions, in any order (R153): the state it leaves. -/
def transactAll : List Transaction → State → State
  | [], s => s
  | t :: ts, s => transactAll ts (transact t s).1

end Sys2Proof.Machine
end

