-- ==== Sys2Proof/Safety.lean ====
section
/-! DEFINITION. Safety.lean: the terms in which claims are made: what a step fetches, the parts of the state and what it means
that they are unchanged, the invariant of a running block, and what a good run is. -/

namespace Sys2Proof.Machine

/-! ### What a step fetches (R32, R71) -/

/-- The number of the opcode at PC: MEM[PC] is its high byte (R32). -/
def State.opcodeAtPc (s : State) : Nat := (s.mem.read s.pc.toNat).toNat * 256 + (s.mem.read (s.pc.toNat + 1)).toNat

/-- The block is running, PC can be fetched from, and the opcode there decodes to `i` (R70–R72). -/
structure Fetches (s : State) (i : Instr) : Prop where
  running : s.run = .running
  inMemory : s.pc.toNat ≤ 4094
  decodes : decode (BitVec.ofNat 16 s.opcodeAtPc) = .instr i

/-! ### What an instruction leaves unchanged -/

/-- The parts of the state apart from the general registers and PC. -/
inductive Part where
  | index | stack | sp | keys | delay | sound | display | memory | run | parameters | draws
deriving DecidableEq, Repr

/-- The part is the same in both states; memory, byte by byte. -/
def Part.Same (s t : State) : Part → Prop
  | .index => t.i = s.i
  | .stack => t.stack = s.stack
  | .sp => t.sp = s.sp
  | .keys => t.keys = s.keys
  | .delay => t.dt = s.dt
  | .sound => t.st = s.st
  | .display => t.disp = s.disp
  | .memory => ∀ a, t.mem.read a = s.mem.read a
  | .run => t.run = s.run
  | .parameters => t.config = s.config
  | .draws => t.draws = s.draws

/-- From `s` to `t`, only the registers `regs` and the parts `parts` may have changed, and PC is `pc`. -/
structure Frame (regs : List RegIdx) (parts : List Part) (pc : Word) (s t : State) : Prop where
  regs : ∀ z, z ∉ regs → t.readV z = s.readV z
  parts : ∀ p, p ∉ parts → p.Same s t
  pc : t.pc = pc

/-- The registers V0 to Vx. -/
def upTo (x : RegIdx) : List RegIdx := (List.finRange 16).filter fun k => decide (k ≤ x)

/-- The registers an instruction may write, as a result or as a flag (R12). -/
def registersWritten : Instr → List RegIdx
  | .ldImm x _ => [x]
  | .addImm x _ => [x]
  | .ldReg x _ => [x]
  | .orReg x _ => [x, 15]
  | .andReg x _ => [x, 15]
  | .xorReg x _ => [x, 15]
  | .addReg x _ => [x, 15]
  | .sub x _ => [x, 15]
  | .shr x _ => [x, 15]
  | .subn x _ => [x, 15]
  | .shl x _ => [x, 15]
  | .rnd x _ => [x]
  | .drw _ _ _ => [15]
  | .ldVxDt x => [x]
  | .ldVxK x => [x]
  | .ldLoad x => upTo x
  | .cls => []
  | .ret => []
  | .sys _ => []
  | .jp _ => []
  | .call _ => []
  | .seImm _ _ => []
  | .sneImm _ _ => []
  | .seReg _ _ => []
  | .sneReg _ _ => []
  | .ldI _ => []
  | .jpV0 _ => []
  | .skp _ => []
  | .sknp _ => []
  | .ldDtVx _ => []
  | .ldStVx _ => []
  | .addI _ => []
  | .ldF _ => []
  | .ldB _ => []
  | .ldStore _ => []

/-- The other parts an instruction may write: I (R13), the stack (R15, R16), KEYS (R17), the timers (R18, R19), DISP (R20),
MEM (R35); and the draw counter of the model (log 5). -/
def partsWritten : Instr → List Part
  | .cls => [.display]
  | .ret => [.sp]
  | .call _ => [.stack, .sp]
  | .ldI _ => [.index]
  | .rnd _ _ => [.draws]
  | .drw _ _ _ => [.display]
  | .skp _ => [.keys]
  | .sknp _ => [.keys]
  | .ldVxK _ => [.keys]
  | .ldDtVx _ => [.delay]
  | .ldStVx _ => [.sound]
  | .addI _ => [.index]
  | .ldF _ => [.index]
  | .ldB _ => [.memory]
  | .ldStore _ => [.memory, .index]
  | .ldLoad _ => [.index]
  | .sys _ => []
  | .jp _ => []
  | .seImm _ _ => []
  | .sneImm _ _ => []
  | .seReg _ _ => []
  | .ldImm _ _ => []
  | .addImm _ _ => []
  | .ldReg _ _ => []
  | .orReg _ _ => []
  | .andReg _ _ => []
  | .xorReg _ _ => []
  | .addReg _ _ => []
  | .sub _ _ => []
  | .shr _ _ => []
  | .subn _ _ => []
  | .shl _ _ => []
  | .sneReg _ _ => []
  | .jpV0 _ => []
  | .ldVxDt _ => []

/-- A change to the state an instruction leaves, when it leaves one; a fault or a refusal stays as it is. -/
def onNext (f : State → State) : Result → Result
  | .next t => .next (f t)
  | .fault e => .fault e
  | .refused r => .refused r

/-! ### Opcodes as numbers: the digits of the patterns in spec/opcode_table.json -/

/-- The opcode `tNNN`. -/
def wordNNN (t : Nat) (n : Addr12) : Word := BitVec.ofNat 16 (0x1000 * t + n.toNat)

/-- The opcode `tXNN`; with a fixed `nn`, the opcode of a row of format `X`. -/
def wordXNN (t : Nat) (x : RegIdx) (nn : Nat) : Word := BitVec.ofNat 16 (0x1000 * t + 0x100 * x.val + nn)

/-- The opcode `tXYN`. -/
def wordXYN (t : Nat) (x y : RegIdx) (n : Nat) : Word :=
  BitVec.ofNat 16 (0x1000 * t + 0x100 * x.val + 0x10 * y.val + n)

/-- The opcodes that the table of R59 lists as invalid, group by group. -/
abbrev ListedInvalid (op : Nat) : Prop :=
  (op / 0x1000 = 0x0 ∧ op % 0x100 = 0x00) ∨
  (op / 0x1000 = 0x0 ∧ (op % 0x100 = 0xE0 ∨ op % 0x100 = 0xEE) ∧ op / 0x100 % 0x10 ≠ 0) ∨
  (op / 0x1000 = 0x5 ∧ op % 0x10 ≠ 0) ∨
  (op / 0x1000 = 0x8 ∧ op % 0x10 ∈ [0x8, 0x9, 0xA, 0xB, 0xC, 0xD, 0xF]) ∨
  (op / 0x1000 = 0x9 ∧ op % 0x10 ≠ 0) ∨
  (op / 0x1000 = 0xE ∧ op % 0x100 ∉ [0x9E, 0xA1]) ∨
  (op / 0x1000 = 0xF ∧ op % 0x100 ∉ [0x07, 0x0A, 0x15, 0x18, 0x1E, 0x29, 0x33, 0x55, 0x65])

/-! ### Accesses of several bytes, and sprites -/

/-- `a` is the first address outside memory among the `len` addresses from `base` on (R31). -/
def FirstOutOfRange (base len a : Nat) : Prop :=
  base ≤ a ∧ a < base + len ∧ 4096 ≤ a ∧ ∀ b, base ≤ b → b < a → b < 4096

/-- How many bytes of memory from I on an instruction accesses (R35). -/
def accessLength : Instr → Nat
  | .drw _ _ n => n.toNat
  | .ldB _ => 3
  | .ldStore x => x.val + 1
  | .ldLoad x => x.val + 1
  | .cls => 0
  | .ret => 0
  | .sys _ => 0
  | .jp _ => 0
  | .call _ => 0
  | .seImm _ _ => 0
  | .sneImm _ _ => 0
  | .seReg _ _ => 0
  | .ldImm _ _ => 0
  | .addImm _ _ => 0
  | .ldReg _ _ => 0
  | .orReg _ _ => 0
  | .andReg _ _ => 0
  | .xorReg _ _ => 0
  | .addReg _ _ => 0
  | .sub _ _ => 0
  | .shr _ _ => 0
  | .subn _ _ => 0
  | .shl _ _ => 0
  | .sneReg _ _ => 0
  | .ldI _ => 0
  | .jpV0 _ => 0
  | .rnd _ _ => 0
  | .skp _ => 0
  | .sknp _ => 0
  | .ldVxDt _ => 0
  | .ldVxK _ => 0
  | .ldDtVx _ => 0
  | .ldStVx _ => 0
  | .addI _ => 0
  | .ldF _ => 0

/-- The sprite of DRW Vx, Vy, n has an on bit that falls on row r and column c: row i of the sprite is the byte at I + i, its
column j is bit 7 - j, and its origin is column Vx mod 64 and row Vy mod 32 (R121, R122). -/
def SpriteOn (s : State) (x y : RegIdx) (n : Nibble) (r c : Nat) : Prop :=
  ∃ i j, i < n.toNat ∧ j < 8 ∧ r = (s.readV y).toNat % 32 + i ∧ c = (s.readV x).toNat % 64 + j ∧
    (s.mem.read (effectiveAddr s.i i)).getLsbD (7 - j) = true

/-! ### The cause of each fault of a step -/

/-- When a step of the block raises a fault, by the tables of R140 and R141. -/
def Fault.Cause (s : State) : Fault → Prop
  | .programTooLarge => False
  | .outOfBounds pc => s.run = .running ∧ pc = s.pc ∧ 4095 ≤ s.pc.toNat
  | .invalidOpcode op => s.run = .running ∧ s.pc.toNat ≤ 4094 ∧ op.toNat = s.opcodeAtPc ∧ ListedInvalid op.toNat
  | .stackOverflow => ∃ n, Fetches s (.call n) ∧ s.sp.val = 16
  | .stackUnderflow => Fetches s .ret ∧ s.sp.val = 0
  | .memoryOutOfRange a => ∃ i, Fetches s i ∧ FirstOutOfRange s.i.toNat (accessLength i) a
  | .indexOverflow sum => ∃ x, Fetches s (.addI x) ∧ sum = s.i.toNat + (s.readV x).toNat ∧ 0xFFFF < sum
  | .fontDigitOutOfRange d => ∃ x, Fetches s (.ldF x) ∧ d = s.readV x ∧ 16 ≤ d.toNat
  | .keyIndexOutOfRange k => ∃ x, (Fetches s (.skp x) ∨ Fetches s (.sknp x)) ∧ k = s.readV x ∧ 16 ≤ k.toNat

/-! ### Invariants -/

/-- What holds in every running state that a run reaches: memory keeps its canonical form, PC is at most 0x10FE (R14), and
every stack slot holds an address a CALL was fetched from, or 0 (R15). -/
structure State.Inv (s : State) : Prop where
  memory : s.mem.wf = true
  pc : s.pc.toNat ≤ 0x10FE
  stack : ∀ k : Fin 16, s.stack[k.val].toNat ≤ 4094

/-- The invariant of the block under every transaction: nothing is claimed of a faulted block (R143). -/
def State.BlockInv (s : State) : Prop := s.run = .running → s.Inv

/-! ### Good runs (R177) -/

/-- `n` steps from `s` end with no fault and no refusal. -/
def FaultFree (n : Nat) (s : State) : Prop := ∃ t, Host.Core.run Sys2Proof.core n s = .next t

/-- A good final state: the host may stop here. A faulted state is never one (R177). -/
def State.GoodFinal (s : State) : Prop := s.run = .running

end Sys2Proof.Machine
end

