-- ==== Sys2Proof/Certificates/Slice0/Obligations.lean ====
section
/-! DEFINITION. Certificates/Slice0/Obligations.lean: the statements for the provers, in the order of the spec's files. A
statement about an instruction says which words decode to it, that `exec` answers a next state, what that state holds, and
what it leaves unchanged (`Frame`). The encodings of the rows that the table marks gk, and the decisions D<n>, are the spec's
own; the spec states them in its rules. -/

open Sys2Proof Sys2Proof.Machine

/-! ## Encoding (30_encoding.md) -/

/-- Every well-formed instruction decodes from its own encoding, with every operand (R51–R58). -/
def Obligations.DecodeOfEncode : Prop := ∀ i, WellFormed i → decode (encode i) = .instr i

/-- Every opcode that decodes is the encoding of a well-formed instruction: no word is read as a neighbour (R53). -/
def Obligations.EncodeOfDecode : Prop := ∀ op i, decode op = .instr i → WellFormed i ∧ encode i = op

/-- The opcodes that decode to nothing are exactly those of the table of R59, and a step that fetches one faults. -/
def Obligations.InvalidOpcodesAreTheListedOnes : Prop :=
  (∀ op, decode op = .rejected (.invalidOpcode op) ↔ ListedInvalid op.toNat) ∧
  ∀ (s : State) (op : Word), s.run = .running → s.pc.toNat ≤ 4094 → op.toNat = s.opcodeAtPc → ListedInvalid op.toNat →
    step s = .fault (.invalidOpcode op)

/-- A few words, written out from the patterns of the opcode table, decode to what they stand for. -/
def Obligations.SampleWordsDecode : Prop :=
  decode 0x00E0#16 = .instr .cls ∧ decode 0x2300#16 = .instr (.call 0x300#12) ∧
  decode 0x7A02#16 = .instr (.addImm 0xA 0x02#8) ∧ decode 0x8F14#16 = .instr (.addReg 0xF 0x1) ∧
  decode 0xD125#16 = .instr (.drw 0x1 0x2 0x5#4) ∧ decode 0xE3A1#16 = .instr (.sknp 0x3) ∧
  decode 0xFC65#16 = .instr (.ldLoad 0xC) ∧ decode 0x01E0#16 = .rejected (.invalidOpcode 0x01E0#16)

/-! ## The step (20_memory.md, 40_control.md) -/

/-- A fetch is big-endian, needs no alignment, and faults exactly when PC + 1 ≥ 4096 (R32, R34). -/
def Obligations.FetchIsBigEndian : Prop :=
  ∀ s : State,
    (s.pc.toNat + 1 < 4096 → ∃ op, s.fetch16 = .ok op ∧
      op.toNat = (s.mem.read s.pc.toNat).toNat * 256 + (s.mem.read (s.pc.toNat + 1)).toNat) ∧
    (4096 ≤ s.pc.toNat + 1 → s.fetch16 = .error (.outOfBounds s.pc))

/-- A running block's step executes the instruction it fetches, faults where the fetch or the decoding does, and a faulted
block's step is refused (R70–R72). -/
def Obligations.StepRunsTheFetchedInstruction : Prop :=
  ∀ s : State,
    (∀ i, Fetches s i → step s = exec i s) ∧
    (s.run = .running → 4095 ≤ s.pc.toNat → step s = .fault (.outOfBounds s.pc)) ∧
    (s.run = .running → s.pc.toNat ≤ 4094 →
      decode (BitVec.ofNat 16 s.opcodeAtPc) = .rejected (.invalidOpcode (BitVec.ofNat 16 s.opcodeAtPc)) →
      step s = .fault (.invalidOpcode (BitVec.ofNat 16 s.opcodeAtPc))) ∧
    (∀ e, s.run = .faulted e → step s = .refused (.blockFaulted e))

/-- A step raises a fault exactly when that fault's own cause, by the tables of R140 and R141, holds. -/
def Obligations.EveryFaultHasExactlyItsCause : Prop :=
  ∀ (s : State) (e : Fault), step s = .fault e ↔ e.Cause s

/-- No instruction is ever refused: it completes or it faults. -/
def Obligations.NoInstructionIsRefused : Prop := ∀ (i : Instr) (s : State) (r : Refusal), exec i s ≠ .refused r

/-! ## Control flow (40_control.md) -/

/-- SYS only advances PC by 2, and the words that R54 takes out of its space are not SYS (R75). -/
def Obligations.SysIsANoOp : Prop :=
  ∀ n : Addr12,
    (n.toNat % 0x100 ∉ [0x00, 0xE0, 0xEE] → decode (wordNNN 0x0 n) = .instr (.sys n)) ∧
    (n.toNat % 0x100 = 0x00 ∨ (n.toNat % 0x100 ∈ [0xE0, 0xEE] ∧ n.toNat / 0x100 ≠ 0) →
      decode (wordNNN 0x0 n) = .rejected (.invalidOpcode (wordNNN 0x0 n))) ∧
    ∀ s : State, ∃ t, exec (.sys n) s = .next t ∧ Frame [] [] (s.pc + 2) s t

/-- JP sets PC to NNN; a target that cannot be fetched faults at the next step, not here (R76). -/
def Obligations.JpSetsPc : Prop :=
  ∀ n : Addr12, decode (wordNNN 0x1 n) = .instr (.jp n) ∧
    ∀ s : State, ∃ t, exec (.jp n) s = .next t ∧ Frame [] [] (BitVec.ofNat 16 n.toNat) s t ∧
      (s.run = .running → 4095 ≤ n.toNat → step t = .fault (.outOfBounds (BitVec.ofNat 16 n.toNat)))

/-- CALL counts SP up and stores its own address in the new top slot, or faults at SP = 16 (R77; the slots are numbered by D4). -/
def Obligations.CallPushesItsOwnAddress : Prop :=
  ∀ n : Addr12, decode (wordNNN 0x2 n) = .instr (.call n) ∧
    ∀ s : State,
      (s.sp.val < 16 → ∃ t, exec (.call n) s = .next t ∧ Frame [] [.stack, .sp] (BitVec.ofNat 16 n.toNat) s t ∧
        t.sp.val = s.sp.val + 1 ∧ t.slot t.sp.val = some s.pc ∧ ∀ k, k ≠ t.sp.val → t.slot k = s.slot k) ∧
      (s.sp.val = 16 → exec (.call n) s = .fault .stackOverflow)

/-- RET sets PC to the top slot and counts SP down, without clearing the slot, or faults at SP = 0 (R78). -/
def Obligations.RetPopsTheCallAddress : Prop :=
  decode 0x00EE#16 = .instr .ret ∧
    ∀ s : State,
      (s.sp.val ≠ 0 → ∃ t, exec .ret s = .next t ∧ t.sp.val = s.sp.val - 1 ∧ s.slot s.sp.val = some t.pc ∧
        Frame [] [.sp] t.pc s t) ∧
      (s.sp.val = 0 → exec .ret s = .fault .stackUnderflow)

/-- A RET that follows a CALL goes back to the CALL itself, with the stack pointer as before (R172). -/
def Obligations.RetReturnsToTheCallItself : Prop :=
  ∀ (n : Addr12) (s : State), s.sp.val < 16 →
    ∃ t u, exec (.call n) s = .next t ∧ exec .ret t = .next u ∧ Frame [] [.stack] s.pc s u ∧
      ∀ k, k ≠ s.sp.val + 1 → u.slot k = s.slot k

/-- JP V0 sets PC to NNN + V0, without wrapping; a target that cannot be fetched faults at the next step (R79). -/
def Obligations.JpV0AddsV0 : Prop :=
  ∀ n : Addr12, decode (wordNNN 0xB n) = .instr (.jpV0 n) ∧
    ∀ s : State, ∃ t, exec (.jpV0 n) s = .next t ∧ t.pc.toNat = n.toNat + (s.readV 0).toNat ∧ Frame [] [] t.pc s t ∧
      (s.run = .running → 4095 ≤ t.pc.toNat → step t = .fault (.outOfBounds t.pc))

/-- SE and SNE with a byte skip on equality and on inequality, and change nothing but PC (R80, R81). -/
def Obligations.SkipsCompareWithAByte : Prop :=
  ∀ (x : RegIdx) (nn : Byte),
    decode (wordXNN 0x3 x nn.toNat) = .instr (.seImm x nn) ∧ decode (wordXNN 0x4 x nn.toNat) = .instr (.sneImm x nn) ∧
    ∀ s : State,
      (∃ t, exec (.seImm x nn) s = .next t ∧
        Frame [] [] (if (s.readV x).toNat = nn.toNat then s.pc + 4 else s.pc + 2) s t) ∧
      (∃ t, exec (.sneImm x nn) s = .next t ∧
        Frame [] [] (if (s.readV x).toNat = nn.toNat then s.pc + 2 else s.pc + 4) s t)

/-- SE and SNE with a register skip on equality and on inequality, and change nothing but PC; the other values of the low
nibble are invalid (R82, R83; that the nibble is checked is D13). -/
def Obligations.SkipsCompareTwoRegisters : Prop :=
  ∀ (x y : RegIdx),
    decode (wordXYN 0x5 x y 0x0) = .instr (.seReg x y) ∧ decode (wordXYN 0x9 x y 0x0) = .instr (.sneReg x y) ∧
    (∀ n, 0 < n → n < 16 → decode (wordXYN 0x5 x y n) = .rejected (.invalidOpcode (wordXYN 0x5 x y n)) ∧
      decode (wordXYN 0x9 x y n) = .rejected (.invalidOpcode (wordXYN 0x9 x y n))) ∧
    ∀ s : State,
      (∃ t, exec (.seReg x y) s = .next t ∧
        Frame [] [] (if (s.readV x).toNat = (s.readV y).toNat then s.pc + 4 else s.pc + 2) s t) ∧
      (∃ t, exec (.sneReg x y) s = .next t ∧
        Frame [] [] (if (s.readV x).toNat = (s.readV y).toNat then s.pc + 2 else s.pc + 4) s t)

/-! ## Arithmetic and logic (41_alu.md) -/

/-- 6XNN loads NN and 7XNN adds NN modulo 256; neither writes a flag (R91, R92). -/
def Obligations.LoadAndAddAByte : Prop :=
  ∀ (x : RegIdx) (nn : Byte),
    decode (wordXNN 0x6 x nn.toNat) = .instr (.ldImm x nn) ∧ decode (wordXNN 0x7 x nn.toNat) = .instr (.addImm x nn) ∧
    ∀ s : State,
      (∃ t, exec (.ldImm x nn) s = .next t ∧ t.readV x = nn ∧ Frame [x] [] (s.pc + 2) s t) ∧
      (∃ t, exec (.addImm x nn) s = .next t ∧ (t.readV x).toNat = ((s.readV x).toNat + nn.toNat) % 256 ∧
        Frame [x] [] (s.pc + 2) s t)

/-- 8XY0 copies Vy to Vx (R93). -/
def Obligations.LdCopiesARegister : Prop :=
  ∀ (x y : RegIdx), decode (wordXYN 0x8 x y 0x0) = .instr (.ldReg x y) ∧
    ∀ s : State, ∃ t, exec (.ldReg x y) s = .next t ∧ t.readV x = s.readV y ∧ Frame [x] [] (s.pc + 2) s t

/-- OR, AND and XOR, bit by bit; VF ends as 0, also when x = F (R94, R95, R96; the order of the two writes is
D3). -/
def Obligations.LogicGroupClearsVf : Prop :=
  ∀ (x y : RegIdx),
    decode (wordXYN 0x8 x y 0x1) = .instr (.orReg x y) ∧ decode (wordXYN 0x8 x y 0x2) = .instr (.andReg x y) ∧
    decode (wordXYN 0x8 x y 0x3) = .instr (.xorReg x y) ∧
    ∀ s : State,
      (∃ t, exec (.orReg x y) s = .next t ∧ t.readV 15 = 0 ∧ Frame [x, 15] [] (s.pc + 2) s t ∧
        (x ≠ 15 → ∀ k, (t.readV x).getLsbD k = ((s.readV x).getLsbD k || (s.readV y).getLsbD k))) ∧
      (∃ t, exec (.andReg x y) s = .next t ∧ t.readV 15 = 0 ∧ Frame [x, 15] [] (s.pc + 2) s t ∧
        (x ≠ 15 → ∀ k, (t.readV x).getLsbD k = ((s.readV x).getLsbD k && (s.readV y).getLsbD k))) ∧
      (∃ t, exec (.xorReg x y) s = .next t ∧ t.readV 15 = 0 ∧ Frame [x, 15] [] (s.pc + 2) s t ∧
        (x ≠ 15 → ∀ k, (t.readV x).getLsbD k = ((s.readV x).getLsbD k ^^ (s.readV y).getLsbD k)))

/-- 8XY4 adds modulo 256, and VF is 1 exactly when the wrapped sum is less than the smaller operand, also when x = F (R97;
the order of the two writes is D3). -/
def Obligations.AddSetsVfByTheWrappedSum : Prop :=
  ∀ (x y : RegIdx), decode (wordXYN 0x8 x y 0x4) = .instr (.addReg x y) ∧
    ∀ s : State, ∃ t, exec (.addReg x y) s = .next t ∧ Frame [x, 15] [] (s.pc + 2) s t ∧
      (x ≠ 15 → (t.readV x).toNat = ((s.readV x).toNat + (s.readV y).toNat) % 256) ∧
      (t.readV 15).toNat = if ((s.readV x).toNat + (s.readV y).toNat) % 256 < min (s.readV x).toNat (s.readV y).toNat
        then 1 else 0

/-- The flag of 8XY4 is the carry out of bit 7: what the spec derives in R97 and R103 from the rule. -/
def Obligations.AddFlagIsTheCarry : Prop :=
  ∀ (x y : RegIdx) (s t : State), exec (.addReg x y) s = .next t →
    (t.readV 15 = 1 ↔ 256 ≤ (s.readV x).toNat + (s.readV y).toNat) ∧
    (t.readV 15 = 0 ↔ (s.readV x).toNat + (s.readV y).toNat < 256)

/-- 8XY5 and 8XY7 subtract modulo 256, and VF is 1 exactly when no borrow is needed, also when x = F (R98, R100;
the order of the two writes is D3). -/
def Obligations.SubtractSetsVfToNoBorrow : Prop :=
  ∀ (x y : RegIdx),
    decode (wordXYN 0x8 x y 0x5) = .instr (.sub x y) ∧ decode (wordXYN 0x8 x y 0x7) = .instr (.subn x y) ∧
    ∀ s : State,
      (∃ t, exec (.sub x y) s = .next t ∧ Frame [x, 15] [] (s.pc + 2) s t ∧
        (x ≠ 15 → ((t.readV x).toNat : Int) = (((s.readV x).toNat : Int) - (s.readV y).toNat) % 256) ∧
        (t.readV 15).toNat = if (s.readV y).toNat ≤ (s.readV x).toNat then 1 else 0) ∧
      (∃ t, exec (.subn x y) s = .next t ∧ Frame [x, 15] [] (s.pc + 2) s t ∧
        (x ≠ 15 → ((t.readV x).toNat : Int) = (((s.readV y).toNat : Int) - (s.readV x).toNat) % 256) ∧
        (t.readV 15).toNat = if (s.readV x).toNat ≤ (s.readV y).toNat then 1 else 0)

/-- 8XY6 and 8XYE shift Vy into Vx, and VF is the bit shifted out, also when x = F (R99, R101; the order of the
two writes is D3). -/
def Obligations.ShiftsSetVfToTheBitShiftedOut : Prop :=
  ∀ (x y : RegIdx),
    decode (wordXYN 0x8 x y 0x6) = .instr (.shr x y) ∧ decode (wordXYN 0x8 x y 0xE) = .instr (.shl x y) ∧
    ∀ s : State,
      (∃ t, exec (.shr x y) s = .next t ∧ Frame [x, 15] [] (s.pc + 2) s t ∧
        (x ≠ 15 → (t.readV x).toNat = (s.readV y).toNat / 2) ∧ (t.readV 15).toNat = (s.readV y).toNat % 2) ∧
      (∃ t, exec (.shl x y) s = .next t ∧ Frame [x, 15] [] (s.pc + 2) s t ∧
        (x ≠ 15 → (t.readV x).toNat = (s.readV y).toNat * 2 % 256) ∧ (t.readV 15).toNat = (s.readV y).toNat / 128)

/-- RND writes a draw masked by NN and sets no flag; the draw is the free value of the draw counter, which counts on, so what
is said here holds for every draw (R102). The counter is the model's own (log 5). -/
def Obligations.RndMasksAFreeDraw : Prop :=
  ∀ (x : RegIdx) (nn : Byte), decode (wordXNN 0xC x nn.toNat) = .instr (.rnd x nn) ∧
    ∀ s : State, ∃ t, exec (.rnd x nn) s = .next t ∧ Frame [x] [.draws] (s.pc + 2) s t ∧ t.draws = s.draws + 1 ∧
      ∀ k, (t.readV x).getLsbD k = ((Config.randomDraw s.draws).getLsbD k && nn.getLsbD k)

/-! ## The address register and memory (42_memory_ops.md) -/

/-- ANNN sets I to NNN (R110). -/
def Obligations.LdISetsI : Prop :=
  ∀ n : Addr12, decode (wordNNN 0xA n) = .instr (.ldI n) ∧
    ∀ s : State, ∃ t, exec (.ldI n) s = .next t ∧ t.i.toNat = n.toNat ∧ Frame [] [.index] (s.pc + 2) s t

/-- FX1E adds Vx to I without a flag, and faults exactly when the sum does not fit in 16 bits (R111; the fault is
D8, no flag is D16). -/
def Obligations.AddIAddsOrOverflows : Prop :=
  ∀ x : RegIdx, decode (wordXNN 0xF x 0x1E) = .instr (.addI x) ∧
    ∀ s : State,
      (s.i.toNat + (s.readV x).toNat ≤ 0xFFFF → ∃ t, exec (.addI x) s = .next t ∧
        t.i.toNat = s.i.toNat + (s.readV x).toNat ∧ Frame [] [.index] (s.pc + 2) s t) ∧
      (0xFFFF < s.i.toNat + (s.readV x).toNat →
        exec (.addI x) s = .fault (.indexOverflow (s.i.toNat + (s.readV x).toNat)))

/-- FX29 sets I to the glyph of the digit in Vx, and faults when Vx is no digit (R112; the fault is D9). -/
def Obligations.LdFPointsAtTheGlyph : Prop :=
  ∀ x : RegIdx, decode (wordXNN 0xF x 0x29) = .instr (.ldF x) ∧
    ∀ s : State,
      ((s.readV x).toNat < 16 → ∃ t, exec (.ldF x) s = .next t ∧ t.i.toNat = 5 * (s.readV x).toNat ∧
        Frame [] [.index] (s.pc + 2) s t) ∧
      (16 ≤ (s.readV x).toNat → exec (.ldF x) s = .fault (.fontDigitOutOfRange (s.readV x)))

/-- FX33 stores the three decimal digits of Vx at I, I + 1, I + 2, changes no other byte, and faults at the first of these
addresses that is outside memory (R113; the fault is D6). -/
def Obligations.LdBStoresDecimalDigits : Prop :=
  ∀ x : RegIdx, decode (wordXNN 0xF x 0x33) = .instr (.ldB x) ∧
    ∀ s : State, s.mem.wf = true →
      (effectiveAddr s.i 2 < 4096 → ∃ t, exec (.ldB x) s = .next t ∧ Frame [] [.memory] (s.pc + 2) s t ∧
        (t.mem.read (effectiveAddr s.i 0)).toNat = (s.readV x).toNat / 100 ∧
        (t.mem.read (effectiveAddr s.i 1)).toNat = (s.readV x).toNat / 10 % 10 ∧
        (t.mem.read (effectiveAddr s.i 2)).toNat = (s.readV x).toNat % 10 ∧
        ∀ a, a ∉ [effectiveAddr s.i 0, effectiveAddr s.i 1, effectiveAddr s.i 2] → t.mem.read a = s.mem.read a) ∧
      ∀ a, FirstOutOfRange (effectiveAddr s.i 0) 3 a → exec (.ldB x) s = .fault (.memoryOutOfRange a)

/-- FX55 stores V0..Vx from I on, changes no other byte, leaves I past the block, and faults at the first address outside
memory (R114; the fault is D6). -/
def Obligations.LdStoreStoresTheBlock : Prop :=
  ∀ x : RegIdx, decode (wordXNN 0xF x 0x55) = .instr (.ldStore x) ∧
    ∀ s : State, s.mem.wf = true →
      (effectiveAddr s.i x.val < 4096 → ∃ t, exec (.ldStore x) s = .next t ∧
        Frame [] [.memory, .index] (s.pc + 2) s t ∧ t.i.toNat = s.i.toNat + x.val + 1 ∧
        (∀ k, k ≤ x → t.mem.read (effectiveAddr s.i k.val) = s.readV k) ∧
        ∀ a, (∀ k, k ≤ x → a ≠ effectiveAddr s.i k.val) → t.mem.read a = s.mem.read a) ∧
      ∀ a, FirstOutOfRange (effectiveAddr s.i 0) (x.val + 1) a → exec (.ldStore x) s = .fault (.memoryOutOfRange a)

/-- FX65 loads V0..Vx from I on, leaves I past the block, and faults at the first address outside memory (R115; the
fault is D6). -/
def Obligations.LdLoadLoadsTheBlock : Prop :=
  ∀ x : RegIdx, decode (wordXNN 0xF x 0x65) = .instr (.ldLoad x) ∧
    ∀ s : State,
      (effectiveAddr s.i x.val < 4096 → ∃ t, exec (.ldLoad x) s = .next t ∧ Frame (upTo x) [.index] (s.pc + 2) s t ∧
        t.i.toNat = s.i.toNat + x.val + 1 ∧ ∀ k, k ≤ x → t.readV k = s.mem.read (effectiveAddr s.i k.val)) ∧
      ∀ a, FirstOutOfRange (effectiveAddr s.i 0) (x.val + 1) a → exec (.ldLoad x) s = .fault (.memoryOutOfRange a)

/-- Storing V0..Vx, then loading V0..Vx from the same address into any registers, gives the registers stored. -/
def Obligations.StoreThenLoadGivesTheRegistersBack : Prop :=
  ∀ (x : RegIdx) (s t : State), s.mem.wf = true → exec (.ldStore x) s = .next t →
    ∀ v : Vector Byte 16, ∃ u, exec (.ldLoad x) { t with i := s.i, v := v } = .next u ∧
      ∀ k, k ≤ x → u.readV k = s.readV k

/-- What FX55 stores is what the next fetch from there reads: self-modifying code needs nothing else (R43, R171). -/
def Obligations.StoredBytesAreFetched : Prop :=
  ∀ (x k : RegIdx) (s t : State), s.mem.wf = true → exec (.ldStore x) s = .next t → k < x →
    t.pc.toNat = effectiveAddr s.i k.val →
    ∃ op, t.fetch16 = .ok op ∧ op.toNat = (s.readV k).toNat * 256 + (s.readV (k + 1)).toNat ∧
      ∀ i, s.run = .running → decode op = .instr i → step t = exec i t

/-! ## Display (43_display.md) -/

/-- CLS turns every pixel off and changes nothing else (R120). -/
def Obligations.ClsClearsTheDisplay : Prop :=
  decode 0x00E0#16 = .instr .cls ∧
    ∀ s : State, ∃ t, exec .cls s = .next t ∧ Frame [] [.display] (s.pc + 2) s t ∧ ∀ r c, t.disp.pixel r c = false

/-- DRW XORs the sprite onto the display, clipped at its edges, and VF says whether a pixel went from on to off; if any of the
sprite's addresses is outside memory, it faults at the first of them (R121; the check is D7, the bit order is D25). -/
def Obligations.DrwXorsTheSpriteAndReportsCollision : Prop :=
  ∀ (x y : RegIdx) (n : Nibble), decode (wordXYN 0xD x y n.toNat) = .instr (.drw x y n) ∧
    ∀ s : State,
      ((∀ i, i < n.toNat → effectiveAddr s.i i < 4096) → ∃ t, exec (.drw x y n) s = .next t ∧
        Frame [15] [.display] (s.pc + 2) s t ∧
        (∀ r c, r < 32 → c < 64 →
          (t.disp.pixel r c = true ↔ ¬ (s.disp.pixel r c = true ↔ SpriteOn s x y n r c))) ∧
        ((∃ r c, r < 32 ∧ c < 64 ∧ s.disp.pixel r c = true ∧ t.disp.pixel r c = false) → t.readV 15 = 1) ∧
        ((∀ r c, r < 32 → c < 64 → s.disp.pixel r c = true → t.disp.pixel r c = true) → t.readV 15 = 0)) ∧
      ∀ a, FirstOutOfRange (effectiveAddr s.i 0) n.toNat a → exec (.drw x y n) s = .fault (.memoryOutOfRange a)

/-- Drawing a sprite a second time at the same place restores the display, and reports a collision exactly when the first
draw had turned a pixel on. The place is the same when the flag has not changed Vx or Vy, which it can when x or y is F. -/
def Obligations.DrawingTwiceRestoresTheDisplay : Prop :=
  ∀ (x y : RegIdx) (n : Nibble) (s t : State), exec (.drw x y n) s = .next t → t.readV x = s.readV x →
    t.readV y = s.readV y →
    ∃ u, exec (.drw x y n) t = .next u ∧ u.disp = s.disp ∧
      (u.readV 15 = 1 ↔ ∃ r c, r < 32 ∧ c < 64 ∧ s.disp.pixel r c = false ∧ t.disp.pixel r c = true)

/-! ## Keypad and timers (44_keypad_timers.md) -/

/-- SKP skips when key Vx is latched and then clears the whole latch; it faults when Vx names no key (R130;
the fault is D10). -/
def Obligations.SkpSkipsAndClearsTheLatch : Prop :=
  ∀ x : RegIdx, decode (wordXNN 0xE x 0x9E) = .instr (.skp x) ∧
    ∀ s : State,
      ((s.readV x).toNat < 16 → s.keys.getLsbD (s.readV x).toNat = true → ∃ t, exec (.skp x) s = .next t ∧
        t.keys = 0 ∧ Frame [] [.keys] (s.pc + 4) s t) ∧
      ((s.readV x).toNat < 16 → s.keys.getLsbD (s.readV x).toNat = false → ∃ t, exec (.skp x) s = .next t ∧
        Frame [] [] (s.pc + 2) s t) ∧
      (16 ≤ (s.readV x).toNat → exec (.skp x) s = .fault (.keyIndexOutOfRange (s.readV x)))

/-- SKNP skips when key Vx is not latched; the parameter SKNP_CLEAR, at each of its values, says when the whole latch is
cleared; it faults when Vx names no key (R131; D10, D11). -/
def Obligations.SknpSkipsAndClearsAsConfigured : Prop :=
  ∀ x : RegIdx, decode (wordXNN 0xE x 0xA1) = .instr (.sknp x) ∧
    ∀ s : State,
      ((s.readV x).toNat < 16 → s.keys.getLsbD (s.readV x).toNat = false → ∃ t, exec (.sknp x) s = .next t ∧
        Frame [] [.keys] (s.pc + 4) s t ∧ (s.config.sknpClear = .onSkip → t.keys = 0) ∧
        (s.config.sknpClear ≠ .onSkip → t.keys = s.keys)) ∧
      ((s.readV x).toNat < 16 → s.keys.getLsbD (s.readV x).toNat = true → ∃ t, exec (.sknp x) s = .next t ∧
        Frame [] [.keys] (s.pc + 2) s t ∧ (s.config.sknpClear = .onPressed → t.keys = 0) ∧
        (s.config.sknpClear ≠ .onPressed → t.keys = s.keys)) ∧
      (16 ≤ (s.readV x).toNat → exec (.sknp x) s = .fault (.keyIndexOutOfRange (s.readV x)))

/-- FX0A changes nothing at all while no key is latched; else it takes the lowest key and clears the whole latch (R132). -/
def Obligations.WaitForKeyTakesTheLowest : Prop :=
  ∀ x : RegIdx, decode (wordXNN 0xF x 0x0A) = .instr (.ldVxK x) ∧
    ∀ s : State,
      (s.keys = 0 → exec (.ldVxK x) s = .next s) ∧
      (s.keys ≠ 0 → ∃ t k, exec (.ldVxK x) s = .next t ∧ k < 16 ∧ s.keys.getLsbD k = true ∧
        (∀ j, j < k → s.keys.getLsbD j = false) ∧ (t.readV x).toNat = k ∧ t.keys = 0 ∧
        Frame [x] [.keys] (s.pc + 2) s t)

/-- FX07, FX15 and FX18 copy between Vx and the timers (R133, R134, R135). -/
def Obligations.TimerMovesCopy : Prop :=
  ∀ x : RegIdx,
    decode (wordXNN 0xF x 0x07) = .instr (.ldVxDt x) ∧ decode (wordXNN 0xF x 0x15) = .instr (.ldDtVx x) ∧
    decode (wordXNN 0xF x 0x18) = .instr (.ldStVx x) ∧
    ∀ s : State,
      (∃ t, exec (.ldVxDt x) s = .next t ∧ t.readV x = s.dt ∧ Frame [x] [] (s.pc + 2) s t) ∧
      (∃ t, exec (.ldDtVx x) s = .next t ∧ t.dt = s.readV x ∧ Frame [] [.delay] (s.pc + 2) s t) ∧
      (∃ t, exec (.ldStVx x) s = .next t ∧ t.st = s.readV x ∧ Frame [] [.sound] (s.pc + 2) s t)

/-! ## Rules about all instructions -/

/-- An instruction that completes changes no general register but those R12 lists for it. -/
def Obligations.RegistersChangeOnlyWhereListed : Prop :=
  ∀ (i : Instr) (s t : State), exec i s = .next t → ∀ z, z ∉ registersWritten i → t.readV z = s.readV z

/-- An instruction that completes changes no other part of the state but those its rule names: only CALL writes a stack slot,
only CLS and DRW the display, only FX33 and FX55 memory, only EX9E, EXA1 and FX0A the latch; none writes RUN. -/
def Obligations.PartsChangeOnlyWhereListed : Prop :=
  ∀ (i : Instr) (s t : State), exec i s = .next t → ∀ p, p ∉ partsWritten i → p.Same s t

/-- The latch is never set by an instruction: it stays or is cleared whole (R17). -/
def Obligations.InstructionsOnlyClearTheLatch : Prop :=
  ∀ (i : Instr) (s t : State), exec i s = .next t → t.keys = s.keys ∨ t.keys = 0

/-- No instruction is influenced by a part of the state that is not its own to read: the timers, the stack, the display and
the latch can hold anything, and every instruction but those named does the same to all the rest (R15–R20, R24). -/
def Obligations.NoOtherInstructionReadsAPart : Prop :=
  ∀ (i : Instr) (s : State),
    (∀ b, (∀ x, i ≠ .ldStVx x) → exec i { s with st := b } = onNext (fun t => { t with st := b }) (exec i s)) ∧
    (∀ b, (∀ x, i ≠ .ldVxDt x ∧ i ≠ .ldDtVx x) →
      exec i { s with dt := b } = onNext (fun t => { t with dt := b }) (exec i s)) ∧
    (∀ p k, i ≠ .ret → (∀ n, i ≠ .call n) →
      exec i { s with sp := p, stack := k } = onNext (fun t => { t with sp := p, stack := k }) (exec i s)) ∧
    (∀ d, i ≠ .cls → (∀ x y n, i ≠ .drw x y n) →
      exec i { s with disp := d } = onNext (fun t => { t with disp := d }) (exec i s)) ∧
    (∀ k, (∀ x, i ≠ .skp x ∧ i ≠ .sknp x ∧ i ≠ .ldVxK x) →
      exec i { s with keys := k } = onNext (fun t => { t with keys := k }) (exec i s))

/-! ## Invariants -/

/-- The invariant holds at creation, after `initialize` under every font and every SKNP_CLEAR, and at reset. -/
def Obligations.StartStatesMeetTheInvariant : Prop :=
  (∀ c, (State.created c).Inv) ∧ (∀ c p, p.length ≤ 3584 → (State.initial c p).Inv) ∧ State.reset.Inv

/-- Every step that completes keeps the invariant: memory stays canonical, PC stays at most 0x10FE, and stack slots stay
addresses a CALL was fetched from. -/
def Obligations.StepKeepsTheInvariant : Prop :=
  ∀ s t : State, s.Inv → step s = .next t → t.Inv

/-- Every sequence of host transactions, with any programs, keys and ticks, keeps the invariant of a running block. -/
def Obligations.TransactionsKeepTheInvariant : Prop :=
  ∀ (ts : List Transaction) (s : State), s.BlockInv → (transactAll ts s).BlockInv

/-- No sequence of transactions changes the parameters FONT and SKNP_CLEAR. -/
def Obligations.ParametersNeverChange : Prop :=
  ∀ (ts : List Transaction) (s : State), (transactAll ts s).config = s.config

/-! ## Host interface and reset (60_exceptions.md, 70_reset_and_hazards.md) -/

/-- From any state, also a faulted one, `initialize(p)` resets every part of the block and puts the font and the program in
memory; a program longer than 3584 bytes is answered with ProgramTooLarge and changes no state (R160, R161; D22, D24). -/
def Obligations.InitializeResetsEverythingOrRefuses : Prop :=
  ∀ (s : State) (p : List Byte),
    (p.length ≤ 3584 → ∃ t, transact (.init p) s = (t, .ok) ∧
      (∀ a, a < 80 → t.mem.read a = s.config.font.toList.getD a 0) ∧
      (∀ k, k < p.length → t.mem.read (0x200 + k) = p.getD k 0) ∧
      (∀ a, 80 ≤ a → a < 4096 → (a < 0x200 ∨ 0x200 + p.length ≤ a) → t.mem.read a = 0) ∧
      (∀ z, t.readV z = 0) ∧ t.i = 0 ∧ t.sp.val = 0 ∧ (∀ k, 1 ≤ k → k ≤ 16 → t.slot k = some 0) ∧
      (∀ r c, t.disp.pixel r c = false) ∧ t.keys = 0 ∧ t.dt = 0 ∧ t.st = 0 ∧ t.pc = 0x200#16 ∧ t.run = .running) ∧
    (3584 < p.length → transact (.init p) s = (s, .fault .programTooLarge))

/-- Each of `n` ticks counts both timers down by one, never below zero, and changes nothing else (R149). -/
def Obligations.TicksCountDownToZero : Prop :=
  ∀ (n : Nat) (s : State), s.run = .running →
    ∃ t, transactAll (List.replicate n .tickTimers) s = t ∧ t.dt.toNat = s.dt.toNat - n ∧ t.st.toNat = s.st.toNat - n ∧
      Frame [] [.delay, .sound] s.pc s t

/-- Pressing keys sets their bits and nothing else: their order and number do not matter; an index that is no
key is refused (R150; the refusal is D21). -/
def Obligations.PressedKeysAreLatched : Prop :=
  (∀ (ks : List Nat) (s : State), s.run = .running → (∀ k ∈ ks, k < 16) →
    ∃ t, transactAll (ks.map .pressKey) s = t ∧ Frame [] [.keys] s.pc s t ∧
      ∀ j, t.keys.getLsbD j = (s.keys.getLsbD j || decide (j ∈ ks))) ∧
  ∀ (k : Nat) (s : State), s.run = .running → 16 ≤ k → transact (.pressKey k) s = (s, .refused (.keyOutOfRange k))

/-- Reading the display or the timers of a running block answers their values and changes no state (R151, R152). -/
def Obligations.ReadsAnswerAndChangeNothing : Prop :=
  ∀ s : State, s.run = .running →
    transact .readTimers s = (s, .timers s.dt s.st) ∧
    ∃ d, transact .readDisplay s = (s, .display d) ∧ ∀ r c, d.pixel r c = s.disp.pixel r c

/-- What a step answers to the host, and what it leaves: Waiting exactly when FX0A finds no key, and then nothing has changed;
a fault sets RUN to Faulted(e) (R70, R142). -/
def Obligations.StepTransactionAnswers : Prop :=
  ∀ s : State,
    ((transact .step s).2 = .waiting ↔ (∃ x, Fetches s (.ldVxK x)) ∧ s.keys = 0) ∧
    ((transact .step s).2 = .waiting → (transact .step s).1 = s) ∧
    (∀ t, step s = .next t → (transact .step s).1 = t ∧
      ((transact .step s).2 = .advanced ∨ (transact .step s).2 = .waiting)) ∧
    (∀ e, step s = .fault e → (transact .step s).2 = .fault e ∧ (transact .step s).1.run = .faulted e)

/-- On a faulted block, steps, ticks and key presses are refused, and RUN never changes again until `initialize`, whatever the
host does (R22, R142). -/
def Obligations.FaultIsStickyUntilInitialize : Prop :=
  ∀ (e : Fault) (s : State), s.run = .faulted e →
    (∀ ts : List Transaction, (∀ p, Transaction.init p ∉ ts) → (transactAll ts s).run = .faulted e) ∧
    (∀ t, t = .step ∨ t = .tickTimers ∨ (∃ k, t = .pressKey k) → transact t s = (s, .refused (.blockFaulted e))) ∧
    ∀ p : List Byte, p.length ≤ 3584 → (transact (.init p) s).1.run = .running

/-- While FX0A waits, any number of steps change nothing; the first step after a key press takes the key (R132, R175). -/
def Obligations.WaitingEndsAtAKeyPress : Prop :=
  ∀ (x : RegIdx) (s : State), Fetches s (.ldVxK x) → s.keys = 0 →
    (∀ n, Host.Core.run Sys2Proof.core n s = .next s) ∧
    ∀ k, k < 16 → ∃ t, step (transact (.pressKey k) s).1 = .next t ∧ (t.readV x).toNat = k ∧ t.keys = 0 ∧ t.pc = s.pc + 2
end

