-- ==== Sys2Proof/Laws/Decode.lean ====
section
/-! SUPPORT. Laws/Decode.lean: the fields of an encoded word, and the bytes of a word. -/

namespace Sys2Proof

/-! ### A field of a word, as a number -/

theorem fieldT_toNat (op : Word) : (fieldT op).toNat = op.toNat / 4096 := by
  have := op.isLt
  simp [fieldT, Nat.shiftRight_eq_div_pow]
  omega

theorem fieldX_val (op : Word) : (fieldX op).val = op.toNat / 256 % 16 := by
  simp [fieldX, Nat.shiftRight_eq_div_pow]

theorem fieldY_val (op : Word) : (fieldY op).val = op.toNat / 16 % 16 := by
  simp [fieldY, Nat.shiftRight_eq_div_pow]

theorem fieldN_toNat (op : Word) : (fieldN op).toNat = op.toNat % 16 := by
  simp [fieldN]

theorem fieldNN_toNat (op : Word) : (fieldNN op).toNat = op.toNat % 256 := by
  simp [fieldNN]

theorem fieldNNN_toNat (op : Word) : (fieldNNN op).toNat = op.toNat % 4096 := by
  simp [fieldNNN]

/-! ### A word of each format, as a number -/

theorem append_toNat {m n : Nat} (a : BitVec m) (b : BitVec n) : (a ++ b).toNat = a.toNat * 2 ^ n + b.toNat := by
  rw [BitVec.toNat_append, Nat.shiftLeft_eq, Nat.mul_comm, ← Nat.two_pow_add_eq_or_of_lt b.isLt]

theorem formNNN_toNat (t : BitVec 4) (n : Addr12) : (formNNN t n).toNat = 4096 * t.toNat + n.toNat := by
  unfold formNNN
  rw [append_toNat]
  omega

theorem formXNN_toNat (t : BitVec 4) (x : RegIdx) (nn : Byte) :
    (formXNN t x nn).toNat = 4096 * t.toNat + 256 * x.val + nn.toNat := by
  unfold formXNN
  rw [append_toNat, append_toNat]
  simp only [BitVec.toNat_ofFin]
  omega

theorem formXYN_toNat (t : BitVec 4) (x y : RegIdx) (n : Nibble) :
    (formXYN t x y n).toNat = 4096 * t.toNat + 256 * x.val + 16 * y.val + n.toNat := by
  unfold formXYN
  rw [append_toNat, append_toNat, append_toNat]
  simp only [BitVec.toNat_ofFin]
  omega

/-! ### The fields of a word of each format -/

@[simp] theorem fieldT_formNNN (t : BitVec 4) (n : Addr12) : fieldT (formNNN t n) = t := by
  apply BitVec.eq_of_toNat_eq
  have := n.isLt
  rw [fieldT_toNat, formNNN_toNat]
  omega

@[simp] theorem fieldNNN_formNNN (t : BitVec 4) (n : Addr12) : fieldNNN (formNNN t n) = n := by
  apply BitVec.eq_of_toNat_eq
  have := n.isLt
  rw [fieldNNN_toNat, formNNN_toNat]
  omega

@[simp] theorem fieldT_formXNN (t : BitVec 4) (x : RegIdx) (nn : Byte) : fieldT (formXNN t x nn) = t := by
  apply BitVec.eq_of_toNat_eq
  have := nn.isLt
  have := x.isLt
  rw [fieldT_toNat, formXNN_toNat]
  omega

@[simp] theorem fieldX_formXNN (t : BitVec 4) (x : RegIdx) (nn : Byte) : fieldX (formXNN t x nn) = x := by
  apply Fin.ext
  have := nn.isLt
  have := x.isLt
  rw [fieldX_val, formXNN_toNat]
  omega

@[simp] theorem fieldNN_formXNN (t : BitVec 4) (x : RegIdx) (nn : Byte) : fieldNN (formXNN t x nn) = nn := by
  apply BitVec.eq_of_toNat_eq
  have := nn.isLt
  rw [fieldNN_toNat, formXNN_toNat]
  omega

@[simp] theorem fieldT_formXYN (t : BitVec 4) (x y : RegIdx) (n : Nibble) : fieldT (formXYN t x y n) = t := by
  apply BitVec.eq_of_toNat_eq
  have := n.isLt
  have := x.isLt
  have := y.isLt
  rw [fieldT_toNat, formXYN_toNat]
  omega

@[simp] theorem fieldX_formXYN (t : BitVec 4) (x y : RegIdx) (n : Nibble) : fieldX (formXYN t x y n) = x := by
  apply Fin.ext
  have := n.isLt
  have := x.isLt
  have := y.isLt
  rw [fieldX_val, formXYN_toNat]
  omega

@[simp] theorem fieldY_formXYN (t : BitVec 4) (x y : RegIdx) (n : Nibble) : fieldY (formXYN t x y n) = y := by
  apply Fin.ext
  have := n.isLt
  have := x.isLt
  have := y.isLt
  rw [fieldY_val, formXYN_toNat]
  omega

@[simp] theorem fieldN_formXYN (t : BitVec 4) (x y : RegIdx) (n : Nibble) : fieldN (formXYN t x y n) = n := by
  apply BitVec.eq_of_toNat_eq
  have := n.isLt
  rw [fieldN_toNat, formXYN_toNat]
  omega

@[simp] theorem fieldT_formX (t : BitVec 4) (x : RegIdx) (f : Byte) : fieldT (formX t x f) = t := fieldT_formXNN t x f
@[simp] theorem fieldX_formX (t : BitVec 4) (x : RegIdx) (f : Byte) : fieldX (formX t x f) = x := fieldX_formXNN t x f
@[simp] theorem fieldNN_formX (t : BitVec 4) (x : RegIdx) (f : Byte) : fieldNN (formX t x f) = f := fieldNN_formXNN t x f

/-! ### The bytes of a word -/

theorem opcodeOfBytes_toNat (hi lo : Byte) : (opcodeOfBytes hi lo).toNat = hi.toNat * 256 + lo.toNat := by
  unfold opcodeOfBytes
  rw [append_toNat]
  rfl

/-- Big-endian bytes put together again are the word (R32). -/
@[simp] theorem opcodeOfBytes_bytes (op : Word) : opcodeOfBytes (highByte op) (lowByte op) = op := by
  apply BitVec.eq_of_toNat_eq
  have := op.isLt
  rw [opcodeOfBytes_toNat]
  simp [highByte, lowByte, Nat.shiftRight_eq_div_pow]
  omega

/-- The decoder on the bytes of a word is the decoder on the word. -/
@[simp] theorem decodeBytes_opcodeBytes (op : Word) : decodeBytes (opcodeBytes op) = decode op := by
  simp [opcodeBytes, decodeBytes]

end Sys2Proof
end

