-- ==== Sys2Proof/Laws/Memory.lean ====
section
/-! SUPPORT. Laws/Memory.lean: the laws of memory: every operation keeps the canonical form, a read after a write, equal bytes
are equal memories, and what `initialize` leaves. -/

namespace Sys2Proof.Machine

@[simp] theorem Memory.read_nil (a : Nat) : Memory.read [] a = unlistedByte := rfl

@[simp] theorem Memory.wfFrom_nil (lo : Nat) : Memory.wfFrom lo [] = true := rfl

/-- The canonical form of a list that begins with a cell, as a proposition. -/
theorem Memory.wfFrom_cons (lo a : Nat) (b : Byte) (m : Memory) :
    Memory.wfFrom lo ((a, b) :: m) = true ↔ lo ≤ a ∧ a < 4096 ∧ b ≠ unlistedByte ∧ Memory.wfFrom (a + 1) m = true := by
  simp [Memory.wfFrom, and_assoc]

theorem Memory.wfFrom_mono {lo lo' : Nat} (h : lo' ≤ lo) : ∀ {m : Memory}, m.wfFrom lo = true → m.wfFrom lo' = true
  | [], _ => rfl
  | (a, b) :: m, hm => by
    rw [Memory.wfFrom_cons] at hm ⊢
    exact ⟨h.trans hm.1, hm.2⟩

theorem Memory.wfFrom_wf {lo : Nat} {m : Memory} (h : m.wfFrom lo = true) : m.wf = true :=
  Memory.wfFrom_mono (Nat.zero_le lo) h

/-- An address below the first that a memory may list reads as unlisted. -/
theorem Memory.read_below : ∀ {lo : Nat} {m : Memory}, m.wfFrom lo = true → ∀ {a : Nat}, a < lo → m.read a = unlistedByte
  | _, [], _, _, _ => rfl
  | lo, (k, b) :: m, hm, a, ha => by
    rw [Memory.wfFrom_cons] at hm
    have hk : k ≠ a := by omega
    simp only [Memory.read, if_neg hk]
    exact Memory.read_below hm.2.2.2 (by omega)

/-- An address outside the address space reads as unlisted. -/
theorem Memory.read_outside : ∀ {lo : Nat} {m : Memory}, m.wfFrom lo = true → ∀ {a : Nat}, 4096 ≤ a → m.read a = unlistedByte
  | _, [], _, _, _ => rfl
  | _, (k, b) :: m, hm, a, ha => by
    rw [Memory.wfFrom_cons] at hm
    have hk : k ≠ a := by omega
    simp only [Memory.read, if_neg hk]
    exact Memory.read_outside hm.2.2.2 ha

/-! ### Writing -/

theorem Memory.put_wf {lo a : Nat} {v : Byte} {m : Memory} (hlo : lo ≤ a) (ha : a < 4096) (hm : m.wfFrom (a + 1) = true) :
    (Memory.put a v m).wfFrom lo = true := by
  unfold Memory.put
  split
  · exact Memory.wfFrom_mono (by omega) hm
  · rename_i hv
    rw [Memory.wfFrom_cons]
    exact ⟨hlo, ha, hv, hm⟩

theorem Memory.read_put {a : Nat} {v : Byte} {m : Memory} (hm : m.wfFrom (a + 1) = true) (b : Nat) :
    (Memory.put a v m).read b = if b = a then v else m.read b := by
  unfold Memory.put
  by_cases hv : v = unlistedByte
  · by_cases hb : b = a
    · subst hb; subst hv
      simp [Memory.read_below hm (Nat.lt_succ_self b)]
    · simp [hv, hb]
  · simp only [if_neg hv, Memory.read]
    by_cases hb : b = a
    · simp [hb]
    · simp [hb, Ne.symm hb]

theorem Memory.write_wfFrom : ∀ {lo a : Nat} {v : Byte} {m : Memory}, m.wfFrom lo = true → lo ≤ a → a < 4096 →
    (m.write a v).wfFrom lo = true
  | lo, a, v, [], _, hlo, ha => Memory.put_wf hlo ha rfl
  | lo, a, v, (k, b) :: m, hm, hlo, ha => by
    have hc := (Memory.wfFrom_cons lo k b m).mp hm
    unfold Memory.write
    split
    · refine Memory.put_wf hlo ha ((Memory.wfFrom_cons _ _ _ _).mpr ⟨by omega, hc.2⟩)
    · split
      · rename_i h; subst h
        exact Memory.put_wf hlo ha hc.2.2.2
      · exact (Memory.wfFrom_cons _ _ _ _).mpr ⟨hc.1, hc.2.1, hc.2.2.1, Memory.write_wfFrom hc.2.2.2 (by omega) ha⟩

/-- A write inside the address space keeps the canonical form. -/
theorem Memory.write_wf {a : Nat} {v : Byte} {m : Memory} (hm : m.wf = true) (ha : a < 4096) : (m.write a v).wf = true :=
  Memory.write_wfFrom hm (Nat.zero_le a) ha

/-- A read after a write: the byte written, at its address, and every other byte as before. -/
theorem Memory.read_write : ∀ {lo : Nat} {m : Memory}, m.wfFrom lo = true → ∀ (a : Nat) (v : Byte) (b : Nat),
    (m.write a v).read b = if b = a then v else m.read b
  | _, [], _, a, v, b => Memory.read_put (m := []) rfl b
  | _, (k, c) :: m, hm, a, v, b => by
    have hc := (Memory.wfFrom_cons _ k c m).mp hm
    unfold Memory.write
    split
    · exact Memory.read_put ((Memory.wfFrom_cons _ _ _ _).mpr ⟨by omega, hc.2⟩) b
    · split
      · rename_i h; subst h
        rw [Memory.read_put hc.2.2.2]
        by_cases hb : b = a
        · simp [hb]
        · simp [hb, Memory.read, Ne.symm hb]
      · rename_i h1 h2
        simp only [Memory.read]
        by_cases hk : k = b
        · subst hk
          simp [Ne.symm h2]
        · simp only [if_neg hk]
          exact Memory.read_write hc.2.2.2 a v b

/-- Canonical memories with the same bytes are the same list. -/
theorem Memory.ext_of_wfFrom : ∀ {lo : Nat} {m m' : Memory}, m.wfFrom lo = true → m'.wfFrom lo = true →
    (∀ a, m.read a = m'.read a) → m = m'
  | _, [], [], _, _, _ => rfl
  | _, [], (k, b) :: m', _, h', h => by
    have hc := (Memory.wfFrom_cons _ _ _ _).mp h'
    exact absurd (by simpa [Memory.read] using (h k).symm) hc.2.2.1
  | _, (k, b) :: m, [], hm, _, h => by
    have hc := (Memory.wfFrom_cons _ _ _ _).mp hm
    exact absurd (by simpa [Memory.read] using h k) hc.2.2.1
  | lo, (k, b) :: m, (k', b') :: m', hm, hm', h => by
    have hc := (Memory.wfFrom_cons _ _ _ _).mp hm
    have hc' := (Memory.wfFrom_cons _ _ _ _).mp hm'
    have hk : k = k' := by
      rcases Nat.lt_trichotomy k k' with hlt | heq | hgt
      · have h1 := h k
        rw [Memory.read_below (lo := k') (m := (k', b') :: m')
          ((Memory.wfFrom_cons _ _ _ _).mpr ⟨Nat.le_refl _, hc'.2⟩) hlt] at h1
        exact absurd (by simpa [Memory.read] using h1) hc.2.2.1
      · exact heq
      · have h1 := h k'
        rw [Memory.read_below (lo := k) (m := (k, b) :: m)
          ((Memory.wfFrom_cons _ _ _ _).mpr ⟨Nat.le_refl _, hc.2⟩) hgt] at h1
        exact absurd (by simpa [Memory.read] using h1.symm) hc'.2.2.1
    subst hk
    have hb : b = b' := by simpa [Memory.read] using h k
    subst hb
    have hrest : m = m' := Memory.ext_of_wfFrom hc.2.2.2 hc'.2.2.2 fun a => by
      by_cases hak : k = a
      · subst hak
        rw [Memory.read_below hc.2.2.2 (Nat.lt_succ_self _), Memory.read_below hc'.2.2.2 (Nat.lt_succ_self _)]
      · simpa [Memory.read, hak] using h a
    rw [hrest]

theorem Memory.ext {m m' : Memory} (hm : m.wf = true) (hm' : m'.wf = true) (h : ∀ a, m.read a = m'.read a) : m = m' :=
  Memory.ext_of_wfFrom hm hm' h

/-! ### Blocks of bytes and the image of `initialize` -/

theorem Memory.cells_wf : ∀ (base : Nat) (bs : List Byte), base + bs.length ≤ 4096 → (Memory.cells base bs).wfFrom base = true
  | _, [], _ => rfl
  | base, b :: bs, h => by
    simp only [List.length_cons] at h
    exact Memory.put_wf (Nat.le_refl base) (by omega) (Memory.cells_wf (base + 1) bs (by omega))

theorem Memory.read_cells : ∀ (base : Nat) (bs : List Byte), base + bs.length ≤ 4096 → ∀ (a : Nat),
    (Memory.cells base bs).read a = if base ≤ a ∧ a < base + bs.length then bs.getD (a - base) unlistedByte else unlistedByte
  | base, [], _, a => by simp [Memory.cells]
  | base, b :: bs, h, a => by
    simp only [List.length_cons] at h
    rw [Memory.cells, Memory.read_put (Memory.cells_wf (base + 1) bs (by omega)),
      Memory.read_cells (base + 1) bs (by omega) a]
    by_cases hab : a = base
    · subst hab; simp
    · simp only [if_neg hab, List.length_cons]
      by_cases hin : base + 1 ≤ a ∧ a < base + 1 + bs.length
      · rw [if_pos hin, if_pos (by omega)]
        obtain ⟨k, hk⟩ : ∃ k, a - base = k + 1 := ⟨a - base - 1, by omega⟩
        rw [hk, show a - (base + 1) = k by omega, List.getD_cons_succ]
      · rw [if_neg hin, if_neg (by omega)]

/-- Every cell of `Memory.cells base bs` is below its end. -/
theorem Memory.cells_append_wf {hi : Nat} {m : Memory} (hm : m.wfFrom hi = true) : ∀ (base : Nat) (bs : List Byte),
    base + bs.length ≤ hi → hi ≤ 4096 → (Memory.cells base bs ++ m).wfFrom base = true
  | base, [], h, _ => Memory.wfFrom_mono (by simpa using h) hm
  | base, b :: bs, h, h4 => by
    simp only [List.length_cons] at h
    have ih := Memory.cells_append_wf hm (base + 1) bs (by omega) h4
    unfold Memory.cells Memory.put
    split
    · exact Memory.wfFrom_mono (by omega) ih
    · rename_i hb
      exact (Memory.wfFrom_cons _ _ _ _).mpr ⟨Nat.le_refl _, by omega, hb, ih⟩

theorem Memory.read_append : ∀ (m m' : Memory) (a : Nat), (∀ c ∈ m, c.2 ≠ unlistedByte) →
    (m ++ m').read a = if m.read a = unlistedByte then m'.read a else m.read a
  | [], m', a, _ => by simp
  | (k, b) :: m, m', a, h => by
    have hb : b ≠ unlistedByte := h (k, b) (by simp)
    simp only [List.cons_append, Memory.read]
    by_cases hk : k = a
    · simp [hk, hb]
    · simp only [if_neg hk]
      exact Memory.read_append m m' a fun c hc => h c (by simp [hc])

theorem Memory.cells_nonzero : ∀ (base : Nat) (bs : List Byte), ∀ c ∈ Memory.cells base bs, c.2 ≠ unlistedByte
  | _, [], c, hc => by simp [Memory.cells] at hc
  | base, b :: bs, c, hc => by
    unfold Memory.cells Memory.put at hc
    split at hc
    · exact Memory.cells_nonzero (base + 1) bs c hc
    · rename_i hb
      rcases List.mem_cons.mp hc with rfl | hc
      · exact hb
      · exact Memory.cells_nonzero (base + 1) bs c hc

/-- The image that `initialize` leaves is canonical (R160). -/
theorem Memory.image_wf {font program : List Byte} (hf : font.length = 80) (hp : program.length ≤ 3584) :
    (Memory.image font program).wf = true :=
  Memory.cells_append_wf (Memory.cells_wf 0x200 program (by omega)) 0 font (by omega) (by omega)

/-- The bytes that `initialize` leaves: the font at 0..79, the program from 0x200 on, zero elsewhere (R37, R160). -/
theorem Memory.read_image {font program : List Byte} (hf : font.length = 80) (hp : program.length ≤ 3584) (a : Nat) :
    (Memory.image font program).read a =
      if a < 80 then font.getD a unlistedByte
      else if 0x200 ≤ a ∧ a < 0x200 + program.length then program.getD (a - 0x200) unlistedByte
      else unlistedByte := by
  rw [Memory.image, Memory.read_append _ _ _ (Memory.cells_nonzero 0 font), Memory.read_cells 0 font (by omega),
    Memory.read_cells 0x200 program (by omega)]
  by_cases h : a < 80
  · have h0 : 0 ≤ a ∧ a < 0 + font.length := by omega
    have h2 : ¬ (0x200 ≤ a ∧ a < 0x200 + program.length) := by omega
    simp only [if_pos h, if_pos h0, if_neg h2, Nat.sub_zero]
    split <;> simp_all
  · have h0 : ¬ (0 ≤ a ∧ a < 0 + font.length) := by omega
    rw [if_neg h0, if_neg h, if_pos rfl]

end Sys2Proof.Machine
end

