-- ==== Sys2Proof/Laws/State.lean ====
section
/-! SUPPORT. Laws/State.lean: the small lemmas of State: what each named update does to each field, true by rfl, and what it
does to a register. -/

namespace Sys2Proof.Machine

/-! ### Writing a register -/

@[simp] theorem State.writeV_i (s : State) (x : RegIdx) (b : Byte) : (s.writeV x b).i = s.i := rfl
@[simp] theorem State.writeV_pc (s : State) (x : RegIdx) (b : Byte) : (s.writeV x b).pc = s.pc := rfl
@[simp] theorem State.writeV_stack (s : State) (x : RegIdx) (b : Byte) : (s.writeV x b).stack = s.stack := rfl
@[simp] theorem State.writeV_sp (s : State) (x : RegIdx) (b : Byte) : (s.writeV x b).sp = s.sp := rfl
@[simp] theorem State.writeV_keys (s : State) (x : RegIdx) (b : Byte) : (s.writeV x b).keys = s.keys := rfl
@[simp] theorem State.writeV_dt (s : State) (x : RegIdx) (b : Byte) : (s.writeV x b).dt = s.dt := rfl
@[simp] theorem State.writeV_st (s : State) (x : RegIdx) (b : Byte) : (s.writeV x b).st = s.st := rfl
@[simp] theorem State.writeV_disp (s : State) (x : RegIdx) (b : Byte) : (s.writeV x b).disp = s.disp := rfl
@[simp] theorem State.writeV_mem (s : State) (x : RegIdx) (b : Byte) : (s.writeV x b).mem = s.mem := rfl
@[simp] theorem State.writeV_run (s : State) (x : RegIdx) (b : Byte) : (s.writeV x b).run = s.run := rfl
@[simp] theorem State.writeV_config (s : State) (x : RegIdx) (b : Byte) : (s.writeV x b).config = s.config := rfl
@[simp] theorem State.writeV_draws (s : State) (x : RegIdx) (b : Byte) : (s.writeV x b).draws = s.draws := rfl

theorem State.readV_writeV (s : State) (x z : RegIdx) (b : Byte) :
    (s.writeV x b).readV z = if z = x then b else s.readV z := by
  by_cases h : z = x
  · subst h; simp [State.readV, State.writeV]
  · have : x.val ≠ z.val := fun hv => h (Fin.ext hv.symm)
    simp [State.readV, State.writeV, h, this]

@[simp] theorem State.readV_writeV_same (s : State) (x : RegIdx) (b : Byte) : (s.writeV x b).readV x = b := by
  simp [State.readV_writeV]

theorem State.readV_writeV_ne (s : State) (x z : RegIdx) (b : Byte) (h : z ≠ x) :
    (s.writeV x b).readV z = s.readV z := by
  simp [State.readV_writeV, h]

/-! ### Writing a result and a flag -/

@[simp] theorem State.writeResultFlag_i (s : State) (x : RegIdx) (r f : Byte) : (s.writeResultFlag x r f).i = s.i := rfl
@[simp] theorem State.writeResultFlag_pc (s : State) (x : RegIdx) (r f : Byte) : (s.writeResultFlag x r f).pc = s.pc := rfl
@[simp] theorem State.writeResultFlag_stack (s : State) (x : RegIdx) (r f : Byte) : (s.writeResultFlag x r f).stack = s.stack := rfl
@[simp] theorem State.writeResultFlag_sp (s : State) (x : RegIdx) (r f : Byte) : (s.writeResultFlag x r f).sp = s.sp := rfl
@[simp] theorem State.writeResultFlag_keys (s : State) (x : RegIdx) (r f : Byte) : (s.writeResultFlag x r f).keys = s.keys := rfl
@[simp] theorem State.writeResultFlag_dt (s : State) (x : RegIdx) (r f : Byte) : (s.writeResultFlag x r f).dt = s.dt := rfl
@[simp] theorem State.writeResultFlag_st (s : State) (x : RegIdx) (r f : Byte) : (s.writeResultFlag x r f).st = s.st := rfl
@[simp] theorem State.writeResultFlag_disp (s : State) (x : RegIdx) (r f : Byte) : (s.writeResultFlag x r f).disp = s.disp := rfl
@[simp] theorem State.writeResultFlag_mem (s : State) (x : RegIdx) (r f : Byte) : (s.writeResultFlag x r f).mem = s.mem := rfl
@[simp] theorem State.writeResultFlag_run (s : State) (x : RegIdx) (r f : Byte) : (s.writeResultFlag x r f).run = s.run := rfl
@[simp] theorem State.writeResultFlag_config (s : State) (x : RegIdx) (r f : Byte) : (s.writeResultFlag x r f).config = s.config := rfl
@[simp] theorem State.writeResultFlag_draws (s : State) (x : RegIdx) (r f : Byte) : (s.writeResultFlag x r f).draws = s.draws := rfl

/-- The flag is written last: VF holds it, whatever x is (R11, R90). -/
@[simp] theorem State.readV_writeResultFlag (s : State) (x z : RegIdx) (r f : Byte) :
    (s.writeResultFlag x r f).readV z = if z = 15 then f else if z = x then r else s.readV z := by
  simp [State.writeResultFlag, State.readV_writeV]

/-! ### Advancing PC -/

@[simp] theorem State.advance_v (s : State) (a : Advance) : (s.advance a).v = s.v := by cases a <;> rfl
@[simp] theorem State.advance_i (s : State) (a : Advance) : (s.advance a).i = s.i := by cases a <;> rfl
@[simp] theorem State.advance_stack (s : State) (a : Advance) : (s.advance a).stack = s.stack := by cases a <;> rfl
@[simp] theorem State.advance_sp (s : State) (a : Advance) : (s.advance a).sp = s.sp := by cases a <;> rfl
@[simp] theorem State.advance_keys (s : State) (a : Advance) : (s.advance a).keys = s.keys := by cases a <;> rfl
@[simp] theorem State.advance_dt (s : State) (a : Advance) : (s.advance a).dt = s.dt := by cases a <;> rfl
@[simp] theorem State.advance_st (s : State) (a : Advance) : (s.advance a).st = s.st := by cases a <;> rfl
@[simp] theorem State.advance_disp (s : State) (a : Advance) : (s.advance a).disp = s.disp := by cases a <;> rfl
@[simp] theorem State.advance_mem (s : State) (a : Advance) : (s.advance a).mem = s.mem := by cases a <;> rfl
@[simp] theorem State.advance_run (s : State) (a : Advance) : (s.advance a).run = s.run := by cases a <;> rfl
@[simp] theorem State.advance_config (s : State) (a : Advance) : (s.advance a).config = s.config := by cases a <;> rfl
@[simp] theorem State.advance_draws (s : State) (a : Advance) : (s.advance a).draws = s.draws := by cases a <;> rfl

@[simp] theorem State.advance_next_pc (s : State) : (s.advance .next).pc = s.pc + 2 := rfl
@[simp] theorem State.advance_skip_pc (s : State) : (s.advance .skip).pc = s.pc + 4 := rfl
@[simp] theorem State.advance_jump_pc (s : State) (t : Word) : (s.advance (.jump t)).pc = t := rfl
@[simp] theorem State.advance_wait (s : State) : s.advance .wait = s := rfl
@[simp] theorem State.readV_advance (s : State) (a : Advance) (z : RegIdx) : (s.advance a).readV z = s.readV z := by
  cases a <;> rfl

/-! ### A register does not depend on the other fields -/

theorem State.readV_of_v {s t : State} (h : t.v = s.v) (z : RegIdx) : t.readV z = s.readV z := by
  rw [State.readV, State.readV, h]

@[simp] theorem State.readV_with_i (s : State) (w : Word) (z : RegIdx) : ({ s with i := w } : State).readV z = s.readV z := rfl
@[simp] theorem State.readV_with_pc (s : State) (w : Word) (z : RegIdx) : ({ s with pc := w } : State).readV z = s.readV z := rfl
@[simp] theorem State.readV_with_stack (s : State) (w : Vector Word 16) (z : RegIdx) : ({ s with stack := w } : State).readV z = s.readV z := rfl
@[simp] theorem State.readV_with_sp (s : State) (w : Fin 17) (z : RegIdx) : ({ s with sp := w } : State).readV z = s.readV z := rfl
@[simp] theorem State.readV_with_keys (s : State) (w : Word) (z : RegIdx) : ({ s with keys := w } : State).readV z = s.readV z := rfl
@[simp] theorem State.readV_with_dt (s : State) (w : Byte) (z : RegIdx) : ({ s with dt := w } : State).readV z = s.readV z := rfl
@[simp] theorem State.readV_with_st (s : State) (w : Byte) (z : RegIdx) : ({ s with st := w } : State).readV z = s.readV z := rfl
@[simp] theorem State.readV_with_disp (s : State) (w : Display) (z : RegIdx) : ({ s with disp := w } : State).readV z = s.readV z := rfl
@[simp] theorem State.readV_with_mem (s : State) (w : Memory) (z : RegIdx) : ({ s with mem := w } : State).readV z = s.readV z := rfl
@[simp] theorem State.readV_with_run (s : State) (w : RunStatus) (z : RegIdx) : ({ s with run := w } : State).readV z = s.readV z := rfl
@[simp] theorem State.readV_with_config (s : State) (w : Config) (z : RegIdx) : ({ s with config := w } : State).readV z = s.readV z := rfl
@[simp] theorem State.readV_with_draws (s : State) (w : Nat) (z : RegIdx) : ({ s with draws := w } : State).readV z = s.readV z := rfl

/-! ### Taking a fault -/

@[simp] theorem State.takeFault_run (s : State) (e : Fault) : (s.takeFault e).run = .faulted e := rfl
@[simp] theorem State.takeFault_config (s : State) (e : Fault) : (s.takeFault e).config = s.config := rfl
@[simp] theorem State.takeFault_draws (s : State) (e : Fault) : (s.takeFault e).draws = s.draws + 1 := rfl

/-! ### Creation and reset -/

@[simp] theorem State.created_i (c : Config) : (State.created c).i = 0 := rfl
@[simp] theorem State.created_pc (c : Config) : (State.created c).pc = 0 := rfl
@[simp] theorem State.created_sp (c : Config) : (State.created c).sp = 0 := rfl
@[simp] theorem State.created_keys (c : Config) : (State.created c).keys = 0 := rfl
@[simp] theorem State.created_dt (c : Config) : (State.created c).dt = 0 := rfl
@[simp] theorem State.created_st (c : Config) : (State.created c).st = 0 := rfl
@[simp] theorem State.created_disp (c : Config) : (State.created c).disp = Display.blank := rfl
@[simp] theorem State.created_mem (c : Config) : (State.created c).mem = [] := rfl
@[simp] theorem State.created_run (c : Config) : (State.created c).run = .running := rfl
@[simp] theorem State.created_config (c : Config) : (State.created c).config = c := rfl
@[simp] theorem State.created_draws (c : Config) : (State.created c).draws = 0 := rfl
@[simp] theorem State.initial_i (c : Config) (p : List Byte) : (State.initial c p).i = 0 := rfl
@[simp] theorem State.initial_pc (c : Config) (p : List Byte) : (State.initial c p).pc = 0x200#16 := rfl
@[simp] theorem State.initial_sp (c : Config) (p : List Byte) : (State.initial c p).sp = 0 := rfl
@[simp] theorem State.initial_keys (c : Config) (p : List Byte) : (State.initial c p).keys = 0 := rfl
@[simp] theorem State.initial_dt (c : Config) (p : List Byte) : (State.initial c p).dt = 0 := rfl
@[simp] theorem State.initial_st (c : Config) (p : List Byte) : (State.initial c p).st = 0 := rfl
@[simp] theorem State.initial_disp (c : Config) (p : List Byte) : (State.initial c p).disp = Display.blank := rfl
@[simp] theorem State.initial_mem (c : Config) (p : List Byte) : (State.initial c p).mem = Memory.image c.font.toList p := rfl
@[simp] theorem State.initial_run (c : Config) (p : List Byte) : (State.initial c p).run = .running := rfl
@[simp] theorem State.initial_config (c : Config) (p : List Byte) : (State.initial c p).config = c := rfl
@[simp] theorem State.initial_draws (c : Config) (p : List Byte) : (State.initial c p).draws = 0 := rfl

@[simp] theorem State.readV_initial (c : Config) (p : List Byte) (z : RegIdx) : (State.initial c p).readV z = 0 := by
  simp [State.readV, State.initial, State.created]

@[simp] theorem State.stack_initial (c : Config) (p : List Byte) (k : Nat) (h : k < 16) :
    (State.initial c p).stack[k] = 0 := by
  simp [State.initial, State.created]

/-! ### Placing a word for the next fetch -/

@[simp] theorem State.withFetchWord_run (s : State) (nbits w : Nat) : (s.withFetchWord nbits w).run = .running := rfl
@[simp] theorem State.withFetchWord_v (s : State) (nbits w : Nat) : (s.withFetchWord nbits w).v = s.v := rfl
@[simp] theorem State.withFetchWord_i (s : State) (nbits w : Nat) : (s.withFetchWord nbits w).i = s.i := rfl
@[simp] theorem State.withFetchWord_sp (s : State) (nbits w : Nat) : (s.withFetchWord nbits w).sp = s.sp := rfl
@[simp] theorem State.withFetchWord_keys (s : State) (nbits w : Nat) : (s.withFetchWord nbits w).keys = s.keys := rfl

end Sys2Proof.Machine
end

