-- ==== Sys2Proof/Laws/Ops.lean ====
section
/-! SUPPORT. Laws/Ops.lean: for each operation shared by the meanings, what it answers and what it leaves unchanged. -/

namespace Sys2Proof.Machine

/-! ### The end of an instruction -/

@[simp] theorem complete_eq (s : State) (a : Advance) : complete s a = .next (s.advance a) := rfl

@[simp] theorem raise_eq (e : Fault) : raise e = .fault e := rfl

theorem skipIf_eq (c : Bool) (s : State) : skipIf c s = .next (s.advance (if c then .skip else .next)) := rfl

/-- A frame whose PC is that of an advance over a state that differs from `s` only where it may. -/
theorem Frame.of_advance {regs : List RegIdx} {parts : List Part} {s u : State} {a : Advance} {pc : Word}
    (hregs : ∀ z, z ∉ regs → u.readV z = s.readV z) (hparts : ∀ p, p ∉ parts → p.Same s u)
    (hpc : (u.advance a).pc = pc) : Frame regs parts pc s (u.advance a) where
  regs z hz := by rw [State.readV_advance]; exact hregs z hz
  parts p hp := by
    have h := hparts p hp
    cases p <;> simpa [Part.Same] using h
  pc := hpc

/-! ### Single accesses (R31, R32) -/

theorem State.memRead_eq_ok {s : State} {a : Nat} {b : Byte} : s.memRead a = .ok b ↔ a < 4096 ∧ s.mem.read a = b := by
  unfold State.memRead
  split <;> simp <;> omega

theorem State.memRead_eq_error {s : State} {a : Nat} {e : Fault} :
    s.memRead a = .error e ↔ 4096 ≤ a ∧ e = .memoryOutOfRange a := by
  unfold State.memRead
  split <;> simp [eq_comm] <;> omega

theorem State.memWrite_eq_ok {s t : State} {a : Nat} {b : Byte} :
    s.memWrite a b = .ok t ↔ a < 4096 ∧ t = { s with mem := s.mem.write a b } := by
  unfold State.memWrite
  split <;> simp [eq_comm] <;> omega

theorem State.memWrite_eq_error {s : State} {a : Nat} {b : Byte} {e : Fault} :
    s.memWrite a b = .error e ↔ 4096 ≤ a ∧ e = .memoryOutOfRange a := by
  unfold State.memWrite
  split <;> simp [eq_comm] <;> omega

theorem State.fetch16_eq_ok {s : State} {op : Word} : s.fetch16 = .ok op ↔
    s.pc.toNat + 1 < 4096 ∧ op = opcodeOfBytes (s.mem.read s.pc.toNat) (s.mem.read (s.pc.toNat + 1)) := by
  unfold State.fetch16
  split <;> simp [eq_comm] <;> omega

theorem State.fetch16_eq_error {s : State} {e : Fault} :
    s.fetch16 = .error e ↔ 4096 ≤ s.pc.toNat + 1 ∧ e = .outOfBounds s.pc := by
  unfold State.fetch16
  split <;> simp [eq_comm] <;> omega

/-! ### Accesses of several bytes (R113, R114, R115, R121) -/

/-- The memory after the bytes are written one by one. -/
def Memory.writeAll : Memory → Nat → List Byte → Memory
  | m, _, [] => m
  | m, a, b :: bs => Memory.writeAll (m.write a b) (a + 1) bs

theorem Memory.writeAll_wf : ∀ {m : Memory} {a : Nat} {bs : List Byte}, m.wf = true → a + bs.length ≤ 4096 →
    (m.writeAll a bs).wf = true
  | _, _, [], hm, _ => hm
  | m, a, b :: bs, hm, h => by
    simp only [List.length_cons] at h
    rw [Memory.writeAll]
    exact Memory.writeAll_wf (Memory.write_wf hm (by omega)) (by omega)

/-- The bytes after several writes: the stored bytes at their addresses, every other byte as before. -/
theorem Memory.read_writeAll : ∀ {m : Memory} {a : Nat} {bs : List Byte}, m.wf = true → a + bs.length ≤ 4096 → ∀ (c : Nat),
    (m.writeAll a bs).read c = if a ≤ c ∧ c < a + bs.length then bs.getD (c - a) 0 else m.read c
  | m, a, [], _, _, c => by
    rw [if_neg (by simp)]
    rfl
  | m, a, b :: bs, hm, h, c => by
    simp only [List.length_cons] at h ⊢
    rw [Memory.writeAll, Memory.read_writeAll (Memory.write_wf hm (by omega)) (by omega), Memory.read_write hm]
    by_cases hc : c = a
    · subst hc
      rw [if_neg (by omega), if_pos rfl, if_pos (by omega)]
      simp
    · rw [if_neg hc]
      by_cases hin : a + 1 ≤ c ∧ c < a + 1 + bs.length
      · rw [if_pos hin, if_pos (by omega)]
        obtain ⟨k, hk⟩ : ∃ k, c - a = k + 1 := ⟨c - a - 1, by omega⟩
        rw [hk, show c - (a + 1) = k by omega, List.getD_cons_succ]
      · rw [if_neg hin, if_neg (by omega)]

/-- Storing bytes that all stand inside memory changes memory and nothing else. -/
theorem State.storeBytes_ok : ∀ (s : State) (a : Nat) (bs : List Byte), a + bs.length ≤ 4096 →
    s.storeBytes a bs = .ok { s with mem := s.mem.writeAll a bs }
  | _, _, [], _ => rfl
  | s, a, b :: bs, h => by
    simp only [List.length_cons] at h
    have h1 : s.memWrite a b = .ok { s with mem := s.mem.write a b } := State.memWrite_eq_ok.mpr ⟨by omega, rfl⟩
    simp only [State.storeBytes, h1]
    exact State.storeBytes_ok _ _ _ (by omega)

/-- Storing faults at the first address outside memory. -/
theorem State.storeBytes_error : ∀ (s : State) (a : Nat) (bs : List Byte), bs ≠ [] → 4096 < a + bs.length →
    s.storeBytes a bs = .error (.memoryOutOfRange (max a 4096))
  | s, a, b :: bs, _, h => by
    simp only [List.length_cons] at h
    by_cases ha : 4096 ≤ a
    · have h1 : s.memWrite a b = .error (.memoryOutOfRange a) := State.memWrite_eq_error.mpr ⟨ha, rfl⟩
      simp only [State.storeBytes, h1, Nat.max_eq_left ha]
    · have h1 : s.memWrite a b = .ok { s with mem := s.mem.write a b } := State.memWrite_eq_ok.mpr ⟨by omega, rfl⟩
      have hne : bs ≠ [] := by
        rintro rfl
        simp at h
        omega
      simp only [State.storeBytes, h1]
      rw [State.storeBytes_error _ (a + 1) bs hne (by omega)]
      congr 2
      omega

/-- Loading bytes that all stand inside memory answers them in order. -/
theorem State.loadBytes_ok (s : State) : ∀ (n a : Nat), a + n ≤ 4096 →
    s.loadBytes a n = .ok ((List.range' a n).map s.mem.read)
  | 0, _, _ => rfl
  | n + 1, a, h => by
    have h1 : s.memRead a = .ok (s.mem.read a) := State.memRead_eq_ok.mpr ⟨by omega, rfl⟩
    simp only [State.loadBytes, h1, State.loadBytes_ok s n (a + 1) (by omega), List.range'_succ, List.map_cons]

/-- Loading faults at the first address outside memory. -/
theorem State.loadBytes_error (s : State) : ∀ (n a : Nat), n ≠ 0 → 4096 < a + n →
    s.loadBytes a n = .error (.memoryOutOfRange (max a 4096))
  | n + 1, a, _, h => by
    by_cases ha : 4096 ≤ a
    · have h1 : s.memRead a = .error (.memoryOutOfRange a) := State.memRead_eq_error.mpr ⟨ha, rfl⟩
      simp only [State.loadBytes, h1, Nat.max_eq_left ha]
    · have h1 : s.memRead a = .ok (s.mem.read a) := State.memRead_eq_ok.mpr ⟨by omega, rfl⟩
      simp only [State.loadBytes, h1, State.loadBytes_error s n (a + 1) (by omega) (by omega)]
      congr 2
      omega

/-! ### Blocks of registers (R114, R115) -/

@[simp] theorem State.regBlock_length (s : State) (x : RegIdx) : (s.regBlock x).length = x.val + 1 := by
  simp [State.regBlock]

theorem State.regBlock_getD (s : State) (x z : RegIdx) (h : z ≤ x) : (s.regBlock x).getD z.val 0 = s.readV z := by
  have hz : z.val < x.val + 1 := Nat.lt_succ_of_le h
  simp [State.regBlock, State.readV, List.getD_eq_getElem?_getD, hz]

theorem State.writeBlock_v_only : ∀ (s : State) (k : Nat) (bs : List Byte), ∃ v, s.writeBlock k bs = { s with v := v }
  | s, _, [] => ⟨s.v, rfl⟩
  | s, k, b :: bs => by
    unfold State.writeBlock
    split
    · obtain ⟨v, hv⟩ := State.writeBlock_v_only (s.writeV _ b) (k + 1) bs
      exact ⟨v, hv.trans rfl⟩
    · exact State.writeBlock_v_only s (k + 1) bs

/-- The registers after a block is written from Vk on. -/
theorem State.readV_writeBlock : ∀ (s : State) (k : Nat) (bs : List Byte) (z : RegIdx),
    (s.writeBlock k bs).readV z = if k ≤ z.val ∧ z.val < k + bs.length then bs.getD (z.val - k) 0 else s.readV z
  | s, k, [], z => by
    rw [if_neg (by simp)]
    rfl
  | s, k, b :: bs, z => by
    simp only [State.writeBlock, List.length_cons]
    rw [State.readV_writeBlock]
    by_cases hz : k = z.val
    · subst hz
      rw [if_neg (by omega), dif_pos z.isLt, if_pos (by omega)]
      simp
    · have hne : (if h : k < 16 then s.writeV ⟨k, h⟩ b else s).readV z = s.readV z := by
        split
        · exact State.readV_writeV_ne _ _ _ _ fun h => hz (by rw [h])
        · rfl
      by_cases hin : k + 1 ≤ z.val ∧ z.val < k + 1 + bs.length
      · rw [if_pos hin, if_pos (by omega)]
        obtain ⟨j, hj⟩ : ∃ j, z.val - k = j + 1 := ⟨z.val - k - 1, by omega⟩
        rw [hj, show z.val - (k + 1) = j by omega, List.getD_cons_succ]
      · rw [if_neg hin, if_neg (by omega), hne]

/-! ### The call stack (R15, R16) -/

theorem State.push_ok (s : State) (ret : Word) (h : s.sp.val < 16) :
    s.push ret = .ok { s with sp := ⟨s.sp.val + 1, by omega⟩, stack := s.stack.set s.sp.val ret h } := by
  unfold State.push
  rw [dif_neg (by omega)]

theorem State.push_full (s : State) (ret : Word) (h : s.sp.val = 16) : s.push ret = .error .stackOverflow := by
  unfold State.push
  rw [dif_pos (by omega)]

theorem State.pop_ok (s : State) (h : s.sp.val ≠ 0) :
    s.pop = .ok (s.stack[s.sp.val - 1]'(by omega), { s with sp := ⟨s.sp.val - 1, by omega⟩ }) := by
  unfold State.pop
  rw [dif_neg h]

theorem State.pop_empty (s : State) (h : s.sp.val = 0) : s.pop = .error .stackUnderflow := by
  unfold State.pop
  rw [dif_pos h]

theorem State.slot_eq (s : State) (k : Nat) (h1 : 1 ≤ k) (h2 : k ≤ 16) :
    s.slot k = some (s.stack[k - 1]'(by omega)) := by
  unfold State.slot
  rw [if_neg (by omega)]
  simp [show k - 1 < 16 by omega]

/-! ### The step (R70–R74) -/

/-- A step on a faulted block is refused. -/
theorem step_faulted {s : State} {e : Fault} (h : s.run = .faulted e) : step s = .refused (.blockFaulted e) := by
  unfold step
  rw [h]

/-- Everything that a step of a running block can be: a fetch fault, a decode fault, or an instruction executed. -/
theorem step_running {s : State} (h : s.run = .running) :
    (4096 ≤ s.pc.toNat + 1 ∧ step s = .fault (.outOfBounds s.pc)) ∨
    ∃ op, s.fetch16 = .ok op ∧ ((∃ r, decode op = .rejected r ∧ step s = .fault (.invalidOpcode op)) ∨
      ∃ i, decode op = .instr i ∧ step s = exec i s) := by
  unfold step
  rw [h]
  by_cases hpc : 4096 ≤ s.pc.toNat + 1
  · exact .inl ⟨hpc, by simp [State.fetch16_eq_error.mpr ⟨hpc, rfl⟩]⟩
  · refine .inr ⟨_, State.fetch16_eq_ok.mpr ⟨by omega, rfl⟩, ?_⟩
    rw [State.fetch16_eq_ok.mpr ⟨by omega, rfl⟩]
    cases hd : decode (opcodeOfBytes (s.mem.read s.pc.toNat) (s.mem.read (s.pc.toNat + 1))) with
    | rejected r => exact .inl ⟨r, rfl, by simp [hd]⟩
    | instr i => exact .inr ⟨i, rfl, by simp [hd]⟩

end Sys2Proof.Machine
end

