-- ==== Sys2Proof/Laws/Sprite.lean ====
section
/-! SUPPORT. Laws/Sprite.lean: the sprite loops of DRW pixel by pixel: a sprite is XORed onto the pixels it covers, and
`erased` says whether it covers a pixel that was on (spec/43_display.md R121). -/

namespace Sys2Proof.Machine

@[simp] theorem Display.pixel_blank (r c : Nat) : Display.blank.pixel r c = false := by
  unfold Display.pixel Display.blank
  split <;> simp

theorem Display.pixel_setPixel (d : Display) {r c : Nat} (hr : r < 32) (hc : c < 64) (b : Bool) (r' c' : Nat) :
    (d.setPixel r c b).pixel r' c' = if r' = r ∧ c' = c then b else d.pixel r' c' := by
  have hset : d.setPixel r c b = d.set r (d[r].set c b) := dif_pos ⟨hr, hc⟩
  rw [hset]
  unfold Display.pixel
  by_cases h : r' < 32 ∧ c' < 64
  · rw [dif_pos h, dif_pos h]
    by_cases hrr : r = r'
    · subst hrr
      by_cases hcc : c = c'
      · subst hcc; simp
      · simp [hcc, Ne.symm hcc]
    · simp [hrr, Ne.symm hrr]
  · rw [dif_neg h, dif_neg h, if_neg (by omega)]

/-- Displays with the same pixels are the same. -/
theorem Display.ext_pixel {d d' : Display} (h : ∀ r c, r < 32 → c < 64 → d.pixel r c = d'.pixel r c) : d = d' := by
  apply Vector.ext
  intro r hr
  apply Vector.ext
  intro c hc
  have := h r c hr hc
  simpa [Display.pixel, hr, hc] using this

/-! ### One row of a sprite -/

/-- Columns k to k + n - 1 of a sprite row, drawn in row r from column ox. -/
theorem Display.pixel_drawColumns (row : Byte) {r : Nat} (ox : Nat) (hr : r < 32) : ∀ (n k : Nat) (d : Display) (e : Bool)
    (r' c' : Nat), c' < 64 → (Display.drawColumns row r ox (List.range' k n) (d, e)).1.pixel r' c' =
      (d.pixel r' c' ^^ (decide (r' = r ∧ ox + k ≤ c' ∧ c' < ox + k + n) && spriteBit row (c' - ox)))
  | 0, k, d, e, r', c', _ => by
    have h : ¬ (r' = r ∧ ox + k ≤ c' ∧ c' < ox + k + 0) := by omega
    rw [decide_eq_false h, Bool.false_and, Bool.xor_false]
    rfl
  | n + 1, k, d, e, r', c', hc' => by
    rw [List.range'_succ, Display.drawColumns]
    by_cases hk : ox + k > 63
    · have h : ¬ (r' = r ∧ ox + k ≤ c' ∧ c' < ox + k + (n + 1)) := by omega
      simp only [if_pos hk, decide_eq_false h, Bool.false_and, Bool.xor_false]
    · simp only [if_neg hk]
      rw [Display.pixel_drawColumns row ox hr n (k + 1) _ _ r' c' hc', Display.pixel_setPixel d hr (by omega)]
      by_cases hrc : r' = r ∧ c' = ox + k
      · obtain ⟨rfl, rfl⟩ := hrc
        have h1 : ¬ (r' = r' ∧ ox + (k + 1) ≤ ox + k ∧ ox + k < ox + (k + 1) + n) := by omega
        have h2 : r' = r' ∧ ox + k ≤ ox + k ∧ ox + k < ox + k + (n + 1) := by omega
        rw [if_pos ⟨rfl, rfl⟩, decide_eq_false h1, decide_eq_true h2, Bool.false_and, Bool.xor_false, Bool.true_and,
          Nat.add_sub_cancel_left]
      · have h1 : (r' = r ∧ ox + (k + 1) ≤ c' ∧ c' < ox + (k + 1) + n) ↔ (r' = r ∧ ox + k ≤ c' ∧ c' < ox + k + (n + 1)) := by
          omega
        simp only [if_neg hrc, decide_eq_decide.mpr h1]

/-- Whether those columns turn a pixel off. -/
theorem Display.erased_drawColumns (row : Byte) {r : Nat} (ox : Nat) (hr : r < 32) : ∀ (n k : Nat) (d : Display) (e : Bool),
    (Display.drawColumns row r ox (List.range' k n) (d, e)).2 = true ↔
      e = true ∨ ∃ c, c < 64 ∧ ox + k ≤ c ∧ c < ox + k + n ∧ d.pixel r c = true ∧ spriteBit row (c - ox) = true
  | 0, k, d, e => by
    simp only [List.range'_zero, Display.drawColumns]
    constructor
    · exact .inl
    · rintro (h | ⟨c, h⟩)
      · exact h
      · omega
  | n + 1, k, d, e => by
    rw [List.range'_succ, Display.drawColumns]
    by_cases hk : ox + k > 63
    · simp only [if_pos hk]
      constructor
      · exact .inl
      · rintro (h | ⟨c, h⟩)
        · exact h
        · omega
    · simp only [if_neg hk]
      rw [Display.erased_drawColumns row ox hr n (k + 1)]
      have hpix : ∀ c, ox + (k + 1) ≤ c → (d.setPixel r (ox + k) (d.pixel r (ox + k) ^^ spriteBit row k)).pixel r c =
          d.pixel r c := fun c hc => by
        rw [Display.pixel_setPixel d hr (by omega), if_neg (by omega)]
      constructor
      · rintro (h | ⟨c, h1, h2, h3, h4, h5⟩)
        · rcases Bool.or_eq_true_iff.mp h with h | h
          · exact .inl h
          · refine .inr ⟨ox + k, by omega, by omega, by omega, ?_⟩
            rw [Nat.add_sub_cancel_left]
            revert h
            cases d.pixel r (ox + k) <;> cases spriteBit row k <;> simp
        · rw [hpix c h2] at h4
          exact .inr ⟨c, h1, by omega, by omega, h4, h5⟩
      · rintro (h | ⟨c, h1, h2, h3, h4, h5⟩)
        · exact .inl (by simp [h])
        · by_cases hc : c = ox + k
          · subst hc
            rw [Nat.add_sub_cancel_left] at h5
            exact .inl (by simp [h4, h5])
          · exact .inr ⟨c, h1, by omega, by omega, by rw [hpix c (by omega)]; exact h4, h5⟩

theorem spriteColumns_eq : spriteColumns = List.range' 0 8 := rfl

/-! ### A whole sprite -/

/-- The sprite with its origin at row oy and column ox has an on bit at row r and column c. -/
def spriteCovers (oy ox : Nat) (sprite : List Byte) (r c : Nat) : Bool :=
  decide (oy ≤ r ∧ r < oy + sprite.length ∧ ox ≤ c ∧ c < ox + 8) && spriteBit (sprite.getD (r - oy) 0) (c - ox)

theorem spriteCovers_nil (oy ox r c : Nat) : spriteCovers oy ox [] r c = false := by
  have h : ¬ (oy ≤ r ∧ r < oy + ([] : List Byte).length ∧ ox ≤ c ∧ c < ox + 8) := by simp; omega
  rw [spriteCovers, decide_eq_false h, Bool.false_and]

/-- A sprite covers what its first row covers, and what the sprite of the other rows, one row on, covers. -/
theorem spriteCovers_cons (oy ox : Nat) (row : Byte) (rows : List Byte) (r c : Nat) :
    spriteCovers oy ox (row :: rows) r c =
      if r = oy then decide (ox ≤ c ∧ c < ox + 8) && spriteBit row (c - ox) else spriteCovers (oy + 1) ox rows r c := by
  unfold spriteCovers
  by_cases h : r = oy
  · subst h
    have h1 : (r ≤ r ∧ r < r + (row :: rows).length ∧ ox ≤ c ∧ c < ox + 8) ↔ (ox ≤ c ∧ c < ox + 8) := by
      simp
    rw [if_pos rfl, decide_eq_decide.mpr h1, Nat.sub_self, List.getD_cons_zero]
  · have h1 : (oy ≤ r ∧ r < oy + (row :: rows).length ∧ ox ≤ c ∧ c < ox + 8) ↔
        (oy + 1 ≤ r ∧ r < oy + 1 + rows.length ∧ ox ≤ c ∧ c < ox + 8) := by
      simp only [List.length_cons]
      omega
    rw [if_neg h, decide_eq_decide.mpr h1]
    by_cases h2 : oy + 1 ≤ r
    · obtain ⟨k, hk⟩ : ∃ k, r - oy = k + 1 := ⟨r - oy - 1, by omega⟩
      rw [hk, show r - (oy + 1) = k by omega, List.getD_cons_succ]
    · have h3 : ¬ (oy + 1 ≤ r ∧ r < oy + 1 + rows.length ∧ ox ≤ c ∧ c < ox + 8) := by omega
      rw [decide_eq_false h3, Bool.false_and, Bool.false_and]

/-- The pixels after the rows of a sprite are drawn from row oy on. -/
theorem Display.pixel_drawRows (ox : Nat) : ∀ (sprite : List Byte) (oy : Nat) (d : Display) (e : Bool) (r c : Nat),
    r < 32 → c < 64 → (Display.drawRows ox sprite oy (d, e)).1.pixel r c = (d.pixel r c ^^ spriteCovers oy ox sprite r c)
  | [], oy, d, e, r, c, _, _ => by simp [Display.drawRows, spriteCovers_nil]
  | row :: rows, oy, d, e, r, c, hr, hc => by
    rw [Display.drawRows]
    by_cases ho : oy > 31
    · have h : ¬ (oy ≤ r ∧ r < oy + (row :: rows).length ∧ ox ≤ c ∧ c < ox + 8) := by omega
      rw [if_pos ho, spriteCovers, decide_eq_false h, Bool.false_and, Bool.xor_false]
    · rw [if_neg ho]
      have hcol := Display.pixel_drawColumns row ox (show oy < 32 by omega) 8 0 d e r c hc
      rw [← spriteColumns_eq] at hcol
      generalize Display.drawColumns row oy ox spriteColumns (d, e) = acc at hcol ⊢
      obtain ⟨d', e'⟩ := acc
      rw [Display.pixel_drawRows ox rows (oy + 1) d' e' r c hr hc, hcol, spriteCovers_cons]
      by_cases h : r = oy
      · subst h
        have h1 : ¬ (r + 1 ≤ r ∧ r < r + 1 + rows.length ∧ ox ≤ c ∧ c < ox + 8) := by omega
        have h2 : (r = r ∧ ox + 0 ≤ c ∧ c < ox + 0 + 8) ↔ (ox ≤ c ∧ c < ox + 8) := by simp
        rw [if_pos rfl, spriteCovers, decide_eq_false h1, Bool.false_and, Bool.xor_false, decide_eq_decide.mpr h2]
      · have h1 : ¬ (r = oy ∧ ox + 0 ≤ c ∧ c < ox + 0 + 8) := by omega
        rw [if_neg h, decide_eq_false h1, Bool.false_and, Bool.xor_false]

/-- Whether the rows of a sprite, drawn from row oy on, turn a pixel off. -/
theorem Display.erased_drawRows (ox : Nat) : ∀ (sprite : List Byte) (oy : Nat) (d : Display) (e : Bool),
    (Display.drawRows ox sprite oy (d, e)).2 = true ↔
      e = true ∨ ∃ r c, r < 32 ∧ c < 64 ∧ d.pixel r c = true ∧ spriteCovers oy ox sprite r c = true
  | [], oy, d, e => by simp [Display.drawRows, spriteCovers_nil]
  | row :: rows, oy, d, e => by
    rw [Display.drawRows]
    by_cases ho : oy > 31
    · rw [if_pos ho]
      constructor
      · exact .inl
      · rintro (h | ⟨r, c, hr, _, _, h⟩)
        · exact h
        · simp [spriteCovers] at h
          omega
    · rw [if_neg ho]
      have hpix := fun r c (hc : c < 64) => Display.pixel_drawColumns row ox (show oy < 32 by omega) 8 0 d e r c hc
      have her := Display.erased_drawColumns row ox (show oy < 32 by omega) 8 0 d e
      rw [← spriteColumns_eq] at her hpix
      generalize Display.drawColumns row oy ox spriteColumns (d, e) = acc at her hpix ⊢
      obtain ⟨d', e'⟩ := acc
      rw [Display.erased_drawRows ox rows (oy + 1) d' e', her]
      have hother : ∀ r c, c < 64 → r ≠ oy → d'.pixel r c = d.pixel r c := fun r c hc h => by
        rw [hpix r c hc, decide_eq_false (by omega), Bool.false_and, Bool.xor_false]
      constructor
      · rintro ((h | ⟨c, h1, h2, h3, h4, h5⟩) | ⟨r, c, h1, h2, h3, h4⟩)
        · exact .inl h
        · refine .inr ⟨oy, c, by omega, h1, h4, ?_⟩
          rw [spriteCovers_cons, if_pos rfl, h5, Bool.and_true, decide_eq_true_iff]
          omega
        · have hne : r ≠ oy := by
            simp [spriteCovers] at h4
            omega
          rw [hother r c h2 hne] at h3
          exact .inr ⟨r, c, h1, h2, h3, by rw [spriteCovers_cons, if_neg hne]; exact h4⟩
      · rintro (h | ⟨r, c, h1, h2, h3, h4⟩)
        · exact .inl (.inl h)
        · rw [spriteCovers_cons] at h4
          by_cases hr : r = oy
          · rw [if_pos hr, Bool.and_eq_true, decide_eq_true_iff] at h4
            subst hr
            exact .inl (.inr ⟨c, h2, by omega, by omega, h3, h4.2⟩)
          · rw [if_neg hr] at h4
            exact .inr ⟨r, c, h1, h2, by rw [hother r c h2 hr]; exact h3, h4⟩

/-- A drawn sprite is XORed onto the pixels it covers, and no other pixel changes (R121). -/
theorem Display.pixel_drawSprite (d : Display) (oy ox : Nat) (sprite : List Byte) {r c : Nat} (hr : r < 32) (hc : c < 64) :
    (d.drawSprite oy ox sprite).1.pixel r c = (d.pixel r c ^^ spriteCovers oy ox sprite r c) :=
  Display.pixel_drawRows ox sprite oy d false r c hr hc

/-- `erased` is whether the sprite covers a pixel that was on (R121). -/
theorem Display.erased_drawSprite (d : Display) (oy ox : Nat) (sprite : List Byte) :
    (d.drawSprite oy ox sprite).2 = true ↔
      ∃ r c, r < 32 ∧ c < 64 ∧ d.pixel r c = true ∧ spriteCovers oy ox sprite r c = true := by
  rw [Display.drawSprite, Display.erased_drawRows]
  simp

end Sys2Proof.Machine
end

