-- ==== Sys2Proof/Laws/Exec.lean ====
section
/-! SUPPORT. Laws/Exec.lean: for each instruction whose meaning tests something first, what it answers in each case. -/

namespace Sys2Proof.Machine

/-! ### Call and return -/

theorem execCall_ok (n : Addr12) (s : State) (h : s.sp.val < 16) : exec (.call n) s =
    .next ({ s with sp := ⟨s.sp.val + 1, by omega⟩, stack := s.stack.set s.sp.val s.pc h }.advance (.jump (zextAddr n))) := by
  simp only [exec, execCall, State.push_ok s s.pc h, complete_eq]

theorem execCall_full (n : Addr12) (s : State) (h : s.sp.val = 16) : exec (.call n) s = .fault .stackOverflow := by
  simp only [exec, execCall, State.push_full s s.pc h, raise_eq]

theorem execRet_ok (s : State) (h : s.sp.val ≠ 0) : exec .ret s =
    .next ({ s with sp := ⟨s.sp.val - 1, by omega⟩ }.advance (.jump (s.stack[s.sp.val - 1]'(by omega)))) := by
  simp only [exec, execRet, State.pop_ok s h, complete_eq]

theorem execRet_empty (s : State) (h : s.sp.val = 0) : exec .ret s = .fault .stackUnderflow := by
  simp only [exec, execRet, State.pop_empty s h, raise_eq]

/-! ### The address register -/

theorem execAddI_ok (x : RegIdx) (s : State) (h : s.i.toNat + (s.readV x).toNat ≤ 0xFFFF) : exec (.addI x) s =
    .next ({ s with i := BitVec.ofNat 16 (s.i.toNat + (s.readV x).toNat) }.advance .next) := by
  have h' : ¬ effectiveAddr s.i (s.readV x).toNat > 0xFFFF := Nat.not_lt.mpr h
  simp only [exec, execAddI, if_neg h', complete_eq]
  rfl

theorem execAddI_overflow (x : RegIdx) (s : State) (h : 0xFFFF < s.i.toNat + (s.readV x).toNat) :
    exec (.addI x) s = .fault (.indexOverflow (s.i.toNat + (s.readV x).toNat)) := by
  have h' : effectiveAddr s.i (s.readV x).toNat > 0xFFFF := h
  simp only [exec, execAddI, if_pos h', raise_eq]
  rfl

theorem execLdF_ok (x : RegIdx) (s : State) (h : (s.readV x).toNat < 16) : exec (.ldF x) s =
    .next ({ s with i := BitVec.ofNat 16 (5 * (s.readV x).toNat) }.advance .next) := by
  have h' : ¬ (s.readV x).toNat ≥ 16 := Nat.not_le.mpr h
  simp only [exec, execLdF, if_neg h', complete_eq]

theorem execLdF_fault (x : RegIdx) (s : State) (h : 16 ≤ (s.readV x).toNat) :
    exec (.ldF x) s = .fault (.fontDigitOutOfRange (s.readV x)) := by
  simp only [exec, execLdF, if_pos (show (s.readV x).toNat ≥ 16 from h), raise_eq]

/-! ### Memory -/

theorem execLdB_ok (x : RegIdx) (s : State) (h : s.i.toNat + 3 ≤ 4096) : exec (.ldB x) s =
    .next ({ s with mem := s.mem.writeAll s.i.toNat (bcdDigits (s.readV x)) }.advance .next) := by
  simp only [exec, execLdB, effectiveAddr, Nat.add_zero,
    State.storeBytes_ok s s.i.toNat (bcdDigits (s.readV x)) h, complete_eq]

theorem execLdB_fault (x : RegIdx) (s : State) (h : 4096 < s.i.toNat + 3) :
    exec (.ldB x) s = .fault (.memoryOutOfRange (max s.i.toNat 4096)) := by
  simp only [exec, execLdB, effectiveAddr, Nat.add_zero,
    State.storeBytes_error s s.i.toNat (bcdDigits (s.readV x)) (List.cons_ne_nil _ _) h, raise_eq]

theorem State.regBlock_ne_nil (s : State) (x : RegIdx) : s.regBlock x ≠ [] := by
  intro h
  have := s.regBlock_length x
  rw [h] at this
  simp at this

theorem execLdStore_ok (x : RegIdx) (s : State) (h : s.i.toNat + x.val < 4096) : exec (.ldStore x) s =
    .next ({ s with mem := s.mem.writeAll s.i.toNat (s.regBlock x), i := BitVec.ofNat 16 (s.i.toNat + (x.val + 1)) }.advance
      .next) := by
  have hl : s.i.toNat + (s.regBlock x).length ≤ 4096 := by rw [State.regBlock_length]; omega
  simp only [exec, execLdStore, effectiveAddr, Nat.add_zero, State.storeBytes_ok s _ _ hl, complete_eq]

theorem execLdStore_fault (x : RegIdx) (s : State) (h : 4096 ≤ s.i.toNat + x.val) :
    exec (.ldStore x) s = .fault (.memoryOutOfRange (max s.i.toNat 4096)) := by
  have hl : 4096 < s.i.toNat + (s.regBlock x).length := by rw [State.regBlock_length]; omega
  simp only [exec, execLdStore, effectiveAddr, Nat.add_zero,
    State.storeBytes_error s _ _ (s.regBlock_ne_nil x) hl, raise_eq]

theorem execLdLoad_ok (x : RegIdx) (s : State) (h : s.i.toNat + x.val < 4096) : exec (.ldLoad x) s =
    .next ({ s.writeBlock 0 ((List.range' s.i.toNat (x.val + 1)).map s.mem.read) with
      i := BitVec.ofNat 16 (s.i.toNat + (x.val + 1)) }.advance .next) := by
  simp only [exec, execLdLoad, effectiveAddr, Nat.add_zero,
    State.loadBytes_ok s (x.val + 1) s.i.toNat (by omega), complete_eq]

theorem execLdLoad_fault (x : RegIdx) (s : State) (h : 4096 ≤ s.i.toNat + x.val) :
    exec (.ldLoad x) s = .fault (.memoryOutOfRange (max s.i.toNat 4096)) := by
  simp only [exec, execLdLoad, effectiveAddr, Nat.add_zero,
    State.loadBytes_error s (x.val + 1) s.i.toNat (by omega) (by omega), raise_eq]

/-! ### Drawing -/

/-- The bytes of the sprite of DRW, as they stand in memory. -/
def State.spriteBytes (s : State) (n : Nibble) : List Byte := (List.range' s.i.toNat n.toNat).map s.mem.read

theorem execDrw_ok (x y : RegIdx) (n : Nibble) (s : State) (h : n.toNat = 0 ∨ s.i.toNat + n.toNat ≤ 4096) :
    exec (.drw x y n) s =
      .next (({ s with disp := (s.disp.drawSprite (originRow (s.readV y)) (originColumn (s.readV x)) (s.spriteBytes n)).1
        }.writeV 15 (flagByte (s.disp.drawSprite (originRow (s.readV y)) (originColumn (s.readV x))
          (s.spriteBytes n)).2)).advance .next) := by
  have hl : s.loadBytes s.i.toNat n.toNat = .ok (s.spriteBytes n) := by
    rcases h with h | h
    · rw [State.spriteBytes, h]
      rfl
    · exact State.loadBytes_ok s n.toNat s.i.toNat h
  simp only [exec, execDrw, effectiveAddr, Nat.add_zero, hl, complete_eq]

theorem execDrw_fault (x y : RegIdx) (n : Nibble) (s : State) (h : n.toNat ≠ 0) (h' : 4096 < s.i.toNat + n.toNat) :
    exec (.drw x y n) s = .fault (.memoryOutOfRange (max s.i.toNat 4096)) := by
  simp only [exec, execDrw, effectiveAddr, Nat.add_zero, State.loadBytes_error s n.toNat s.i.toNat h h', raise_eq]

/-- What the drawing loops cover is what the rule says the sprite covers (R121, R122). -/
theorem spriteCovers_iff (s : State) (x y : RegIdx) (n : Nibble) (r c : Nat) :
    spriteCovers (originRow (s.readV y)) (originColumn (s.readV x)) (s.spriteBytes n) r c = true ↔ SpriteOn s x y n r c := by
  have hbyte : ∀ i, i < n.toNat → (s.spriteBytes n).getD i 0 = s.mem.read (effectiveAddr s.i i) := fun i hi => by
    simp [State.spriteBytes, effectiveAddr, List.getD_eq_getElem?_getD, List.getElem?_range' hi]
  simp only [spriteCovers, SpriteOn, originRow, originColumn, Bool.and_eq_true, decide_eq_true_iff, spriteBit,
    State.spriteBytes, List.length_map, List.length_range']
  constructor
  · rintro ⟨⟨h1, h2, h3, h4⟩, h5⟩
    refine ⟨r - (s.readV y).toNat % 32, c - (s.readV x).toNat % 64, by omega, by omega, by omega, by omega, ?_⟩
    rw [← hbyte _ (by omega)]
    exact h5
  · rintro ⟨i, j, h1, h2, rfl, rfl, h5⟩
    refine ⟨by omega, ?_⟩
    rw [Nat.add_sub_cancel_left, Nat.add_sub_cancel_left]
    exact (congrArg (fun b => b.getLsbD (7 - j)) (hbyte i h1)).trans h5

/-! ### Keypad -/

theorem execSkp_pressed (x : RegIdx) (s : State) (h : (s.readV x).toNat < 16) (hk : s.keys.getLsbD (s.readV x).toNat = true) :
    exec (.skp x) s = .next ({ s with keys := 0 }.advance .skip) := by
  simp only [exec, execSkp, if_neg (show ¬ (s.readV x).toNat ≥ 16 from Nat.not_le.mpr h), if_pos hk, complete_eq]

theorem execSkp_notPressed (x : RegIdx) (s : State) (h : (s.readV x).toNat < 16)
    (hk : s.keys.getLsbD (s.readV x).toNat = false) : exec (.skp x) s = .next (s.advance .next) := by
  simp only [exec, execSkp, if_neg (show ¬ (s.readV x).toNat ≥ 16 from Nat.not_le.mpr h), hk, Bool.false_eq_true, if_false,
    complete_eq]

theorem execSkp_fault (x : RegIdx) (s : State) (h : 16 ≤ (s.readV x).toNat) :
    exec (.skp x) s = .fault (.keyIndexOutOfRange (s.readV x)) := by
  simp only [exec, execSkp, if_pos (show (s.readV x).toNat ≥ 16 from h), raise_eq]

theorem execSknp_pressed (x : RegIdx) (s : State) (h : (s.readV x).toNat < 16)
    (hk : s.keys.getLsbD (s.readV x).toNat = true) : exec (.sknp x) s =
      .next ({ s with keys := if s.config.sknpClear = SknpClear.onPressed then 0 else s.keys }.advance .next) := by
  simp only [exec, execSknp, if_neg (show ¬ (s.readV x).toNat ≥ 16 from Nat.not_le.mpr h), if_pos hk, complete_eq]

theorem execSknp_notPressed (x : RegIdx) (s : State) (h : (s.readV x).toNat < 16)
    (hk : s.keys.getLsbD (s.readV x).toNat = false) : exec (.sknp x) s =
      .next ({ s with keys := if s.config.sknpClear = SknpClear.onSkip then 0 else s.keys }.advance .skip) := by
  simp only [exec, execSknp, if_neg (show ¬ (s.readV x).toNat ≥ 16 from Nat.not_le.mpr h), hk, Bool.false_eq_true, if_false,
    complete_eq]

theorem execSknp_fault (x : RegIdx) (s : State) (h : 16 ≤ (s.readV x).toNat) :
    exec (.sknp x) s = .fault (.keyIndexOutOfRange (s.readV x)) := by
  simp only [exec, execSknp, if_pos (show (s.readV x).toNat ≥ 16 from h), raise_eq]

theorem execLdVxK_wait (x : RegIdx) (s : State) (h : s.keys = 0) : exec (.ldVxK x) s = .next s := by
  simp only [exec, execLdVxK, if_pos h, complete_eq, State.advance_wait]

theorem execLdVxK_key (x : RegIdx) (s : State) (h : s.keys ≠ 0) : exec (.ldVxK x) s =
    .next (({ s with keys := 0 }.writeV x (BitVec.ofNat 8 (lowestKey s.keys).val)).advance .next) := by
  simp only [exec, execLdVxK, if_neg h, complete_eq]

/-- The lowest key of a latch that is not empty: its bit is set, and no lower one is (R132). -/
theorem lowestKey_spec {keys : Word} (h : keys ≠ 0) :
    keys.getLsbD (lowestKey keys).val = true ∧ ∀ j, j < (lowestKey keys).val → keys.getLsbD j = false := by
  have hscan : ∀ (l : List (Fin 16)), l.Pairwise (· < ·) → (∃ k ∈ l, keys.getLsbD k.val = true) →
      keys.getLsbD ((l.find? fun k => keys.getLsbD k.val).getD 0).val = true ∧
      ∀ j ∈ l, j < (l.find? fun k => keys.getLsbD k.val).getD 0 → keys.getLsbD j.val = false := by
    intro l
    induction l with
    | nil => rintro _ ⟨k, hk, _⟩; cases hk
    | cons a l ih =>
      intro hp hex
      rw [List.pairwise_cons] at hp
      cases ha : keys.getLsbD a.val with
      | true =>
        simp only [List.find?_cons, ha, Option.getD_some, true_and]
        intro j hj hlt
        rcases List.mem_cons.mp hj with rfl | hj
        · exact absurd hlt (lt_irrefl _)
        · exact absurd (hp.1 j hj) (not_lt_of_gt hlt)
      | false =>
        obtain ⟨k, hk, hkb⟩ := hex
        have hk' : k ∈ l := (List.mem_cons.mp hk).resolve_left fun he => by rw [he, ha] at hkb; cases hkb
        obtain ⟨h1, h2⟩ := ih hp.2 ⟨k, hk', hkb⟩
        simp only [List.find?_cons, ha]
        refine ⟨h1, fun j hj hlt => ?_⟩
        rcases List.mem_cons.mp hj with rfl | hj
        · exact ha
        · exact h2 j hj hlt
  have hex : ∃ k ∈ scanOrder, keys.getLsbD k.val = true := by
    by_contra hno
    refine h (BitVec.eq_of_getLsbD_eq fun i hi => ?_)
    have hmem : (⟨i, hi⟩ : Fin 16) ∈ scanOrder := by
      have hall : ∀ k : Fin 16, k ∈ scanOrder := by decide
      exact hall _
    have : keys.getLsbD i ≠ true := fun hb => hno ⟨⟨i, hi⟩, hmem, hb⟩
    simpa using this
  obtain ⟨h1, h2⟩ := hscan scanOrder (by decide) hex
  refine ⟨h1, fun j hj => ?_⟩
  have hall : ∀ k : Fin 16, k ∈ scanOrder := by decide
  exact h2 ⟨j, by omega⟩ (hall _) hj

/-! ### The first address outside memory -/

/-- The first address outside memory among several is the larger of their first and 4096 (R31). -/
theorem firstOutOfRange_iff {base len a : Nat} : FirstOutOfRange base len a ↔ 4096 < base + len ∧ 0 < len ∧ a = max base 4096 := by
  unfold FirstOutOfRange
  constructor
  · rintro ⟨h1, h2, h3, h4⟩
    refine ⟨by omega, by omega, ?_⟩
    rcases Nat.lt_or_ge base 4096 with hb | hb
    · have := h4 4096
      omega
    · have := h4 base
      omega
  · rintro ⟨h1, h2, rfl⟩
    refine ⟨by omega, by omega, by omega, fun b hb hlt => by omega⟩

end Sys2Proof.Machine
end

