-- ==== Sys2Proof/Laws/PerInstr.lean ====
section
/-! SUPPORT. Laws/PerInstr.lean: statements for all instructions, one lemma for each. The family TableMatch: the encoding of an
instruction has the fixed bits that its row of spec/opcode_table.json lists. -/

namespace Sys2Proof.Laws.TableMatch

/-- The row's `fixed` list in spec/opcode_table.json: high bit, low bit, value. -/
def fixedBits : Instr → List (Nat × Nat × Nat)
  | .cls => [(15, 0, 0xE0)]
  | .ret => [(15, 0, 0xEE)]
  | .sys _ => [(15, 12, 0x0)]
  | .jp _ => [(15, 12, 0x1)]
  | .call _ => [(15, 12, 0x2)]
  | .seImm _ _ => [(15, 12, 0x3)]
  | .sneImm _ _ => [(15, 12, 0x4)]
  | .seReg _ _ => [(3, 0, 0x0), (15, 12, 0x5)]
  | .ldImm _ _ => [(15, 12, 0x6)]
  | .addImm _ _ => [(15, 12, 0x7)]
  | .ldReg _ _ => [(3, 0, 0x0), (15, 12, 0x8)]
  | .orReg _ _ => [(3, 0, 0x1), (15, 12, 0x8)]
  | .andReg _ _ => [(3, 0, 0x2), (15, 12, 0x8)]
  | .xorReg _ _ => [(3, 0, 0x3), (15, 12, 0x8)]
  | .addReg _ _ => [(3, 0, 0x4), (15, 12, 0x8)]
  | .sub _ _ => [(3, 0, 0x5), (15, 12, 0x8)]
  | .shr _ _ => [(3, 0, 0x6), (15, 12, 0x8)]
  | .subn _ _ => [(3, 0, 0x7), (15, 12, 0x8)]
  | .shl _ _ => [(3, 0, 0xE), (15, 12, 0x8)]
  | .sneReg _ _ => [(3, 0, 0x0), (15, 12, 0x9)]
  | .ldI _ => [(15, 12, 0xA)]
  | .jpV0 _ => [(15, 12, 0xB)]
  | .rnd _ _ => [(15, 12, 0xC)]
  | .drw _ _ _ => [(15, 12, 0xD)]
  | .skp _ => [(7, 0, 0x9E), (15, 12, 0xE)]
  | .sknp _ => [(7, 0, 0xA1), (15, 12, 0xE)]
  | .ldVxDt _ => [(7, 0, 0x7), (15, 12, 0xF)]
  | .ldVxK _ => [(7, 0, 0xA), (15, 12, 0xF)]
  | .ldDtVx _ => [(7, 0, 0x15), (15, 12, 0xF)]
  | .ldStVx _ => [(7, 0, 0x18), (15, 12, 0xF)]
  | .addI _ => [(7, 0, 0x1E), (15, 12, 0xF)]
  | .ldF _ => [(7, 0, 0x29), (15, 12, 0xF)]
  | .ldB _ => [(7, 0, 0x33), (15, 12, 0xF)]
  | .ldStore _ => [(7, 0, 0x55), (15, 12, 0xF)]
  | .ldLoad _ => [(7, 0, 0x65), (15, 12, 0xF)]

/-- Bits hi to lo of a word, as a number (R7). -/
def bits (w : Word) (hi lo : Nat) : Nat := w.toNat / 2 ^ lo % 2 ^ (hi - lo + 1)

/-- The encoding has the row's fixed bits. -/
def Statement (i : Instr) : Prop := ∀ f ∈ fixedBits i, bits (encode i) f.1 f.2.1 = f.2.2

theorem bits_formNNN (t : BitVec 4) (n : Addr12) : bits (formNNN t n) 15 12 = t.toNat := by
  have := n.isLt
  rw [bits, formNNN_toNat]
  omega

theorem bits_formXNN (t : BitVec 4) (x : RegIdx) (nn : Byte) : bits (formXNN t x nn) 15 12 = t.toNat := by
  have := x.isLt
  have := nn.isLt
  rw [bits, formXNN_toNat]
  omega

theorem bits_formX (t : BitVec 4) (x : RegIdx) (f : Byte) :
    bits (formX t x f) 7 0 = f.toNat ∧ bits (formX t x f) 15 12 = t.toNat := by
  refine ⟨?_, bits_formXNN t x f⟩
  rw [bits, formX, formXNN_toNat]
  omega

theorem bits_formXYN (t : BitVec 4) (x y : RegIdx) (n : Nibble) :
    bits (formXYN t x y n) 3 0 = n.toNat ∧ bits (formXYN t x y n) 15 12 = t.toNat := by
  have := x.isLt
  have := y.isLt
  have := n.isLt
  rw [bits, bits, formXYN_toNat]
  omega

theorem cls : Statement (.cls) := by
  simp [Statement, fixedBits, encode, bits]

theorem ret : Statement (.ret) := by
  simp [Statement, fixedBits, encode, bits]

theorem sys (n : Addr12) : Statement (.sys n) := by
  simp [Statement, fixedBits, encode, bits_formNNN]

theorem jp (n : Addr12) : Statement (.jp n) := by
  simp [Statement, fixedBits, encode, bits_formNNN]

theorem call (n : Addr12) : Statement (.call n) := by
  simp [Statement, fixedBits, encode, bits_formNNN]

theorem seImm (x : RegIdx) (nn : Byte) : Statement (.seImm x nn) := by
  simp [Statement, fixedBits, encode, bits_formXNN]

theorem sneImm (x : RegIdx) (nn : Byte) : Statement (.sneImm x nn) := by
  simp [Statement, fixedBits, encode, bits_formXNN]

theorem seReg (x : RegIdx) (y : RegIdx) : Statement (.seReg x y) := by
  simp [Statement, fixedBits, encode, bits_formXYN]

theorem ldImm (x : RegIdx) (nn : Byte) : Statement (.ldImm x nn) := by
  simp [Statement, fixedBits, encode, bits_formXNN]

theorem addImm (x : RegIdx) (nn : Byte) : Statement (.addImm x nn) := by
  simp [Statement, fixedBits, encode, bits_formXNN]

theorem ldReg (x : RegIdx) (y : RegIdx) : Statement (.ldReg x y) := by
  simp [Statement, fixedBits, encode, bits_formXYN]

theorem orReg (x : RegIdx) (y : RegIdx) : Statement (.orReg x y) := by
  simp [Statement, fixedBits, encode, bits_formXYN]

theorem andReg (x : RegIdx) (y : RegIdx) : Statement (.andReg x y) := by
  simp [Statement, fixedBits, encode, bits_formXYN]

theorem xorReg (x : RegIdx) (y : RegIdx) : Statement (.xorReg x y) := by
  simp [Statement, fixedBits, encode, bits_formXYN]

theorem addReg (x : RegIdx) (y : RegIdx) : Statement (.addReg x y) := by
  simp [Statement, fixedBits, encode, bits_formXYN]

theorem sub (x : RegIdx) (y : RegIdx) : Statement (.sub x y) := by
  simp [Statement, fixedBits, encode, bits_formXYN]

theorem shr (x : RegIdx) (y : RegIdx) : Statement (.shr x y) := by
  simp [Statement, fixedBits, encode, bits_formXYN]

theorem subn (x : RegIdx) (y : RegIdx) : Statement (.subn x y) := by
  simp [Statement, fixedBits, encode, bits_formXYN]

theorem shl (x : RegIdx) (y : RegIdx) : Statement (.shl x y) := by
  simp [Statement, fixedBits, encode, bits_formXYN]

theorem sneReg (x : RegIdx) (y : RegIdx) : Statement (.sneReg x y) := by
  simp [Statement, fixedBits, encode, bits_formXYN]

theorem ldI (n : Addr12) : Statement (.ldI n) := by
  simp [Statement, fixedBits, encode, bits_formNNN]

theorem jpV0 (n : Addr12) : Statement (.jpV0 n) := by
  simp [Statement, fixedBits, encode, bits_formNNN]

theorem rnd (x : RegIdx) (nn : Byte) : Statement (.rnd x nn) := by
  simp [Statement, fixedBits, encode, bits_formXNN]

theorem drw (x : RegIdx) (y : RegIdx) (n : Nibble) : Statement (.drw x y n) := by
  simp [Statement, fixedBits, encode, bits_formXYN]

theorem skp (x : RegIdx) : Statement (.skp x) := by
  simp [Statement, fixedBits, encode, bits_formX]

theorem sknp (x : RegIdx) : Statement (.sknp x) := by
  simp [Statement, fixedBits, encode, bits_formX]

theorem ldVxDt (x : RegIdx) : Statement (.ldVxDt x) := by
  simp [Statement, fixedBits, encode, bits_formX]

theorem ldVxK (x : RegIdx) : Statement (.ldVxK x) := by
  simp [Statement, fixedBits, encode, bits_formX]

theorem ldDtVx (x : RegIdx) : Statement (.ldDtVx x) := by
  simp [Statement, fixedBits, encode, bits_formX]

theorem ldStVx (x : RegIdx) : Statement (.ldStVx x) := by
  simp [Statement, fixedBits, encode, bits_formX]

theorem addI (x : RegIdx) : Statement (.addI x) := by
  simp [Statement, fixedBits, encode, bits_formX]

theorem ldF (x : RegIdx) : Statement (.ldF x) := by
  simp [Statement, fixedBits, encode, bits_formX]

theorem ldB (x : RegIdx) : Statement (.ldB x) := by
  simp [Statement, fixedBits, encode, bits_formX]

theorem ldStore (x : RegIdx) : Statement (.ldStore x) := by
  simp [Statement, fixedBits, encode, bits_formX]

theorem ldLoad (x : RegIdx) : Statement (.ldLoad x) := by
  simp [Statement, fixedBits, encode, bits_formX]

end Sys2Proof.Laws.TableMatch
end

