-- ==== Sys2Proof/Laws/Words.lean ====
section
/-! SUPPORT. Laws/Words.lean: the opcodes that claims write as numbers are the encoder's words, and the opcode at PC is what
the fetch reads. -/

namespace Sys2Proof.Machine

theorem wordNNN_eq (t : Nat) (n : Addr12) : wordNNN t n = formNNN (BitVec.ofNat 4 t) n := by
  apply BitVec.eq_of_toNat_eq
  have := n.isLt
  rw [formNNN_toNat, wordNNN, BitVec.toNat_ofNat, BitVec.toNat_ofNat]
  omega

theorem wordXNN_eq (t : Nat) (x : RegIdx) (nn : Byte) :
    wordXNN t x nn.toNat = formXNN (BitVec.ofNat 4 t) x nn := by
  apply BitVec.eq_of_toNat_eq
  have := nn.isLt
  have := x.isLt
  rw [formXNN_toNat, wordXNN, BitVec.toNat_ofNat, BitVec.toNat_ofNat]
  omega

theorem wordXYN_eq (t : Nat) (x y : RegIdx) (n : Nibble) :
    wordXYN t x y n.toNat = formXYN (BitVec.ofNat 4 t) x y n := by
  apply BitVec.eq_of_toNat_eq
  have := n.isLt
  have := x.isLt
  have := y.isLt
  rw [formXYN_toNat, wordXYN, BitVec.toNat_ofNat, BitVec.toNat_ofNat]
  omega

/-- The opcode at PC, as a word, is the two bytes put together (R32). -/
theorem State.ofNat_opcodeAtPc (s : State) :
    BitVec.ofNat 16 s.opcodeAtPc = opcodeOfBytes (s.mem.read s.pc.toNat) (s.mem.read (s.pc.toNat + 1)) := by
  apply BitVec.eq_of_toNat_eq
  have := (s.mem.read s.pc.toNat).isLt
  have := (s.mem.read (s.pc.toNat + 1)).isLt
  rw [opcodeOfBytes_toNat, State.opcodeAtPc, BitVec.toNat_ofNat]
  omega

end Sys2Proof.Machine
end

