-- ==== Sys2Proof/Tests/Slice0.lean ====
section
/-! SUPPORT. Tests/Slice0.lean: the model's own tests. Expected results come from spec/95_test_vectors.md (S1–S9 are the
source's worked examples, the other vectors are the spec's), or from the encodings of spec/opcode_table.json; each test names
its vector. The last part shows, for every obligation with hypotheses, states and operands that meet them, at the ends of
their ranges. -/

namespace Sys2Proof.Tests

open Sys2Proof.Machine

/-! ### Small states -/

/-- The creation state with PC at the entry point: memory is empty, so that a test is cheap to evaluate. -/
def base : State := { State.created defaultConfig with pc := 0x200#16 }

/-- The general registers that are not zero. -/
def withV (l : List (RegIdx × Byte)) (s : State) : State := l.foldl (fun t p => t.writeV p.1 p.2) s

/-- Bytes at an address, zero elsewhere. -/
def withBytes (a : Nat) (bs : List Byte) (s : State) : State := { s with mem := Memory.cells a bs }

/-- One pixel on. -/
def withPixel (r c : Nat) (s : State) : State := { s with disp := s.disp.setPixel r c true }

/-- A step of the word answers a next state with the property. -/
def gives (w : Nat) (s : State) (p : State → Bool) : Bool :=
  match step (s.withFetchWord 16 w) with
  | .next t => p t
  | .fault _ => false
  | .refused _ => false

/-- A step of the word ends with the fault. -/
def faults (w : Nat) (s : State) (e : Fault) : Bool :=
  match step (s.withFetchWord 16 w) with
  | .next _ => false
  | .fault f => decide (f = e)
  | .refused _ => false

/-! ### WellFormed: an ill-formed term for each check -/

theorem test_wf_sys : WellFormed (.sys 0x123#12) := by decide
theorem test_wf_refuses_sys_0n00 : ¬ WellFormed (.sys 0x000#12) ∧ ¬ WellFormed (.sys 0xF00#12) := by decide
theorem test_wf_refuses_sys_0nE0 : ¬ WellFormed (.sys 0x0E0#12) ∧ ¬ WellFormed (.sys 0x1E0#12) := by decide
theorem test_wf_refuses_sys_0nEE : ¬ WellFormed (.sys 0x0EE#12) ∧ ¬ WellFormed (.sys 0xFEE#12) := by decide

/-! ### Decoding: a word of every row, written out from its pattern in spec/opcode_table.json -/

/-- `00E0`, `00EE`, `0NNN`, `1NNN`, `2NNN`. -/
theorem test_decode_groups_0_1_2 :
    decode 0b0000000011100000#16 = .instr .cls ∧ decode 0b0000000011101110#16 = .instr .ret ∧
    decode 0b0000000100100011#16 = .instr (.sys 0x123#12) ∧ decode 0b0001001101000101#16 = .instr (.jp 0x345#12) ∧
    decode 0b0010001100000000#16 = .instr (.call 0x300#12) :=
  ⟨rfl, rfl, rfl, rfl, rfl⟩

/-- `3XNN`, `4XNN`, `5XY0`, `6XNN`, `7XNN`. -/
theorem test_decode_groups_3_to_7 :
    decode 0b0011000100010000#16 = .instr (.seImm 0x1 0x10#8) ∧ decode 0b0100000100010001#16 = .instr (.sneImm 0x1 0x11#8) ∧
    decode 0b0101000100100000#16 = .instr (.seReg 0x1 0x2) ∧ decode 0b0110101001000010#16 = .instr (.ldImm 0xA 0x42#8) ∧
    decode 0b0111111100000001#16 = .instr (.addImm 0xF 0x01#8) :=
  ⟨rfl, rfl, rfl, rfl, rfl⟩

/-- `8XY0` to `8XY7`, and `8XYE`. -/
theorem test_decode_group_8 :
    decode 0b1000001100010000#16 = .instr (.ldReg 0x3 0x1) ∧ decode 0b1000001100010001#16 = .instr (.orReg 0x3 0x1) ∧
    decode 0b1000001100010010#16 = .instr (.andReg 0x3 0x1) ∧ decode 0b1000001100010011#16 = .instr (.xorReg 0x3 0x1) ∧
    decode 0b1000001100010100#16 = .instr (.addReg 0x3 0x1) ∧ decode 0b1000001100010101#16 = .instr (.sub 0x3 0x1) ∧
    decode 0b1000001100010110#16 = .instr (.shr 0x3 0x1) ∧ decode 0b1000001100010111#16 = .instr (.subn 0x3 0x1) ∧
    decode 0b1000001100011110#16 = .instr (.shl 0x3 0x1) :=
  ⟨rfl, rfl, rfl, rfl, rfl, rfl, rfl, rfl, rfl⟩

/-- `9XY0`, `ANNN`, `BNNN`, `CXNN`, `DXYN`. -/
theorem test_decode_groups_9_to_D :
    decode 0b1001000100100000#16 = .instr (.sneReg 0x1 0x2) ∧ decode 0b1010000100100011#16 = .instr (.ldI 0x123#12) ∧
    decode 0b1011001100000000#16 = .instr (.jpV0 0x300#12) ∧ decode 0b1100000000001111#16 = .instr (.rnd 0x0 0x0F#8) ∧
    decode 0b1101000100100101#16 = .instr (.drw 0x1 0x2 0x5#4) :=
  ⟨rfl, rfl, rfl, rfl, rfl⟩

/-- `EX9E` and `EXA1`, and the nine rows of group F. -/
theorem test_decode_groups_E_F :
    decode 0b1110001110011110#16 = .instr (.skp 0x3) ∧ decode 0b1110001110100001#16 = .instr (.sknp 0x3) ∧
    decode 0b1111001100000111#16 = .instr (.ldVxDt 0x3) ∧ decode 0b1111001100001010#16 = .instr (.ldVxK 0x3) ∧
    decode 0b1111001100010101#16 = .instr (.ldDtVx 0x3) ∧ decode 0b1111001100011000#16 = .instr (.ldStVx 0x3) ∧
    decode 0b1111001100011110#16 = .instr (.addI 0x3) ∧ decode 0b1111001100101001#16 = .instr (.ldF 0x3) ∧
    decode 0b1111001100110011#16 = .instr (.ldB 0x3) ∧ decode 0b1111001101010101#16 = .instr (.ldStore 0x3) ∧
    decode 0b1111001101100101#16 = .instr (.ldLoad 0x3) :=
  ⟨rfl, rfl, rfl, rfl, rfl, rfl, rfl, rfl, rfl, rfl, rfl⟩

/-- The invalid opcodes of section 2.1 in groups 0, 5 and 9. -/
theorem test_decode_rejects_groups_0_5_9 :
    (decode 0x0000#16 = .rejected (.invalidOpcode 0x0000#16) ∧ decode 0x0100#16 = .rejected (.invalidOpcode 0x0100#16)) ∧
    (decode 0x01E0#16 = .rejected (.invalidOpcode 0x01E0#16) ∧ decode 0x0FEE#16 = .rejected (.invalidOpcode 0x0FEE#16)) ∧
    decode 0x5121#16 = .rejected (.invalidOpcode 0x5121#16) ∧ decode 0x900F#16 = .rejected (.invalidOpcode 0x900F#16) :=
  ⟨⟨rfl, rfl⟩, ⟨rfl, rfl⟩, rfl, rfl⟩

/-- The invalid opcodes of section 2.1 in group 8. -/
theorem test_decode_rejects_group_8 : decode 0x8008#16 = .rejected (.invalidOpcode 0x8008#16) ∧
    decode 0x800F#16 = .rejected (.invalidOpcode 0x800F#16) := ⟨rfl, rfl⟩

/-- The invalid opcodes of section 2.1 in groups E and F. -/
theorem test_decode_rejects_groups_E_F :
    (decode 0xE09F#16 = .rejected (.invalidOpcode 0xE09F#16) ∧ decode 0xE000#16 = .rejected (.invalidOpcode 0xE000#16)) ∧
    decode 0xF000#16 = .rejected (.invalidOpcode 0xF000#16) ∧ decode 0xF0FF#16 = .rejected (.invalidOpcode 0xF0FF#16) ∧
    decode 0xF056#16 = .rejected (.invalidOpcode 0xF056#16) := ⟨⟨rfl, rfl⟩, rfl, rfl, rfl⟩

/-- Too few bytes are no instruction. -/
theorem test_decode_truncated : decodeBytes [] = .rejected .truncated ∧ decodeBytes [0x60#8] = .rejected .truncated := by
  decide

/-! ### The step (section 2.1) -/

/-- PC = 0xFFE, CLS: PC = 0x1000. -/
theorem test_fetch_at_the_last_word : gives 0x00E0 { base with pc := 0xFFE#16 } (fun t => t.pc == 0x1000#16) = true := by
  decide

/-- PC = 0x201, 6011: an odd PC fetches normally, big-endian. -/
theorem test_fetch_odd_pc : gives 0x6011 { base with pc := 0x201#16 } (fun t => t.readV 0 == 0x11#8 && t.pc == 0x203#16) = true := by
  decide

/-- PC = 0xFFF and PC = 0x1000 fault. -/
theorem test_fetch_out_of_bounds :
    step { base with pc := 0xFFF#16 } = .fault (.outOfBounds 0xFFF#16) ∧
    step { base with pc := 0x1000#16 } = .fault (.outOfBounds 0x1000#16) := ⟨rfl, rfl⟩

/-- The creation state and the reset state fetch 0x0000 (section 2.7). -/
theorem test_first_step_without_program :
    step (State.created defaultConfig) = .fault (.invalidOpcode 0x0000#16) ∧
    step State.reset = .fault (.invalidOpcode 0x0000#16) := ⟨rfl, rfl⟩

/-! ### Control flow (section 2.2) -/

theorem test_sys : gives 0x0123 base (fun t => t.pc == 0x202#16) = true := by decide
theorem test_jp : gives 0x1345 base (fun t => t.pc == 0x345#16) = true := by decide
theorem test_jp_self : gives 0x1200 base (fun t => t.pc == 0x200#16) = true := by decide

/-- PC = 0x250, SP = 3, 2400: SP = 4, STACK[4] = 0x250. -/
theorem test_call : gives 0x2400 { base with pc := 0x250#16, sp := 3 }
    (fun t => t.pc == 0x400#16 && t.sp == 4 && t.slot 4 == some 0x250#16) = true := by decide

theorem test_call_overflow : faults 0x2400 { base with sp := 16 } .stackOverflow = true := by decide

/-- SP = 4, STACK[4] = 0x250: PC = 0x250, SP = 3, the slot keeps its value. -/
theorem test_ret : gives 0x00EE { base with sp := 4, stack := base.stack.set 3 0x250#16 }
    (fun t => t.pc == 0x250#16 && t.sp == 3 && t.slot 4 == some 0x250#16) = true := by decide

theorem test_ret_underflow : faults 0x00EE base .stackUnderflow = true := by decide
theorem test_jpV0 : gives 0xB300 (withV [(0, 0xFF#8)] base) (fun t => t.pc == 0x3FF#16) = true := by decide
theorem test_jpV0_past_memory : gives 0xBFFF (withV [(0, 0xFF#8)] base) (fun t => t.pc == 0x10FE#16) = true := by decide

theorem test_seImm : gives 0x3110 (withV [(1, 0x10#8)] base) (fun t => t.pc == 0x204#16) = true ∧
    gives 0x3111 (withV [(1, 0x10#8)] base) (fun t => t.pc == 0x202#16) = true := by decide
theorem test_sneImm : gives 0x4110 (withV [(1, 0x10#8)] base) (fun t => t.pc == 0x202#16) = true ∧
    gives 0x4111 (withV [(1, 0x10#8)] base) (fun t => t.pc == 0x204#16) = true := by decide
theorem test_seReg : gives 0x5120 (withV [(1, 7#8), (2, 8#8)] base) (fun t => t.pc == 0x202#16) = true ∧
    gives 0x5330 (withV [(3, 9#8)] base) (fun t => t.pc == 0x204#16) = true := by decide
theorem test_sneReg : gives 0x9120 (withV [(1, 7#8), (2, 8#8)] base) (fun t => t.pc == 0x204#16) = true ∧
    gives 0x9330 (withV [(3, 9#8)] base) (fun t => t.pc == 0x202#16) = true := by decide

/-- VF = 0x01, PC = 0xFFE, 3F01: a skip out of memory. -/
theorem test_skip_past_memory : gives 0x3F01 (withV [(15, 1#8)] { base with pc := 0xFFE#16 }) (fun t => t.pc == 0x1002#16) = true := by
  decide

/-! ### Arithmetic and logic (section 2.3) -/

theorem test_ldImm : gives 0x6A42 base (fun t => t.readV 0xA == 0x42#8) = true := by decide
theorem test_addImm_wraps_into_vf : gives 0x7F01 (withV [(15, 0xFF#8)] base) (fun t => t.readV 15 == 0#8) = true := by decide
theorem test_addImm_keeps_vf : gives 0x7310 (withV [(3, 0x10#8), (15, 1#8)] base)
    (fun t => t.readV 3 == 0x20#8 && t.readV 15 == 1#8) = true := by decide
theorem test_ldReg : gives 0x8010 (withV [(1, 0x5A#8)] base) (fun t => t.readV 0 == 0x5A#8 && t.readV 1 == 0x5A#8) = true := by
  decide
theorem test_or : gives 0x8011 (withV [(0, 0xF0#8), (1, 0x0F#8), (15, 1#8)] base)
    (fun t => t.readV 0 == 0xFF#8 && t.readV 15 == 0#8) = true := by decide
theorem test_or_into_vf : gives 0x8F11 (withV [(15, 0x0F#8), (1, 0xF0#8)] base) (fun t => t.readV 15 == 0#8) = true := by decide
theorem test_and : gives 0x8012 (withV [(0, 0xF0#8), (1, 0x3C#8), (15, 1#8)] base)
    (fun t => t.readV 0 == 0x30#8 && t.readV 15 == 0#8) = true := by decide
theorem test_xor : gives 0x8013 (withV [(0, 0xFF#8), (1, 0x0F#8), (15, 1#8)] base)
    (fun t => t.readV 0 == 0xF0#8 && t.readV 15 == 0#8) = true := by decide

/-- S4, and VF as the destination. -/
theorem test_addReg_carry : gives 0x8014 (withV [(0, 0xFF#8), (1, 1#8)] base)
    (fun t => t.readV 0 == 0#8 && t.readV 15 == 1#8) = true := by decide
theorem test_addReg_into_vf : gives 0x8F14 (withV [(15, 0xFF#8), (1, 1#8)] base) (fun t => t.readV 15 == 1#8) = true := by decide

/-- S5, and a borrow. -/
theorem test_sub_equal : gives 0x8015 (withV [(0, 5#8), (1, 5#8)] base)
    (fun t => t.readV 0 == 0#8 && t.readV 15 == 1#8) = true := by decide
theorem test_sub_borrow : gives 0x8015 (withV [(0, 5#8), (1, 6#8), (15, 1#8)] base)
    (fun t => t.readV 0 == 0xFF#8 && t.readV 15 == 0#8) = true := by decide
theorem test_shr_reads_vy : gives 0x8016 (withV [(0, 0xAA#8), (1, 5#8)] base)
    (fun t => t.readV 0 == 2#8 && t.readV 15 == 1#8) = true := by decide
theorem test_shr_of_vf : gives 0x80F6 (withV [(15, 2#8)] base) (fun t => t.readV 0 == 1#8 && t.readV 15 == 0#8) = true := by decide
theorem test_subn : gives 0x8017 (withV [(0, 3#8), (1, 5#8)] base) (fun t => t.readV 0 == 2#8 && t.readV 15 == 1#8) = true := by
  decide
theorem test_subn_borrow : gives 0x8017 (withV [(0, 5#8), (1, 3#8)] base)
    (fun t => t.readV 0 == 0xFE#8 && t.readV 15 == 0#8) = true := by decide
theorem test_shl : gives 0x801E (withV [(1, 0x81#8)] base) (fun t => t.readV 0 == 2#8 && t.readV 15 == 1#8) = true := by decide
theorem test_shl_into_vf : gives 0x8F0E (withV [(0, 0x80#8)] base) (fun t => t.readV 15 == 1#8) = true := by decide

/-- Any draw, C000: V0 = 0. Only what the rule fixes for every draw is tested. -/
theorem test_rnd_zero_mask : ∃ t, exec (.rnd 0 0x00#8) base = .next t ∧ t.readV 0 = 0#8 := by
  refine ⟨_, rfl, ?_⟩
  rw [State.readV_advance]
  exact (State.readV_writeV_same _ _ _).trans BitVec.and_zero

/-! ### The address register and memory (section 2.4) -/

theorem test_ldI : gives 0xA123 base (fun t => t.i == 0x123#16) = true := by decide
theorem test_addI : gives 0xF21E (withV [(2, 0x10#8), (15, 7#8)] { base with i := 0x300#16 })
    (fun t => t.i == 0x310#16 && t.readV 15 == 7#8) = true := by decide
theorem test_addI_overflow : faults 0xF01E (withV [(0, 1#8)] { base with i := 0xFFFF#16 }) (.indexOverflow 0x10000) = true := by
  decide
theorem test_ldF : gives 0xF029 (withV [(0, 0x0F#8)] base) (fun t => t.i == 0x4B#16) = true := by decide
theorem test_ldF_fault : faults 0xF029 (withV [(0, 0x10#8)] base) (.fontDigitOutOfRange 0x10#8) = true := by decide
theorem test_ldB : gives 0xF333 (withV [(3, 0xFE#8)] { base with i := 0x300#16 })
    (fun t => t.mem.read 0x300 == 2#8 && t.mem.read 0x301 == 5#8 && t.mem.read 0x302 == 4#8 && t.i == 0x300#16) = true := by
  decide
theorem test_ldB_at_the_end : faults 0xF033 (withV [(0, 0xFF#8)] { base with i := 0xFFE#16 }) (.memoryOutOfRange 0x1000) = true := by
  decide
theorem test_ldStore : gives 0xF255 (withV [(0, 1#8), (1, 2#8), (2, 3#8), (3, 4#8)] { base with i := 0x300#16 })
    (fun t => t.mem.read 0x300 == 1#8 && t.mem.read 0x301 == 2#8 && t.mem.read 0x302 == 3#8 && t.mem.read 0x303 == 0#8 &&
      t.i == 0x303#16) = true := by decide
theorem test_ldStore_at_the_end : faults 0xF155 { base with i := 0xFFF#16 } (.memoryOutOfRange 0x1000) = true := by decide
theorem test_ldLoad : gives 0xF265 (withV [(3, 9#8)] (withBytes 0x300 [2#8, 5#8, 4#8, 7#8] { base with i := 0x300#16 }))
    (fun t => t.readV 0 == 2#8 && t.readV 1 == 5#8 && t.readV 2 == 4#8 && t.readV 3 == 9#8 && t.i == 0x303#16) = true := by
  decide
theorem test_ldLoad_outside : faults 0xF065 { base with i := 0x1000#16 } (.memoryOutOfRange 0x1000) = true := by decide

/-! ### Display (section 2.5) -/

/-- S2, with one pixel on, and VF unchanged. -/
theorem test_cls : gives 0x00E0 (withV [(15, 1#8)] (withPixel 31 63 base))
    (fun t => t.disp.pixel 31 63 == false && t.readV 15 == 1#8) = true := by decide

/-- DISP[0][0] = 1, a sprite of 0xC0 at (0, 0): S7's second draw, with a second pixel. -/
theorem test_drw_collision : gives 0xD011 (withPixel 0 0 (withBytes 0x300 [0xC0#8] { base with i := 0x300#16 }))
    (fun t => t.disp.pixel 0 0 == false && t.disp.pixel 0 1 == true && t.readV 15 == 1#8) = true := by decide

/-- V0 = 70, V1 = 33: the origin wraps, to column 6 and row 1. And a sprite of two rows at the last address faults (D7). -/
theorem test_drw_origin_and_bounds :
    gives 0xD011 (withV [(0, 70#8), (1, 33#8)] (withBytes 0x300 [0x80#8] { base with i := 0x300#16 }))
      (fun t => t.disp.pixel 1 6 == true && t.readV 15 == 0#8) = true ∧
    faults 0xD012 (withV [(1, 31#8)] { base with i := 0xFFF#16 }) (.memoryOutOfRange 0x1000) = true := by decide

/-! ### Keypad and timers (section 2.6) -/

theorem test_skp : gives 0xE09E (withV [(0, 5#8)] { base with keys := 0x0028#16 })
    (fun t => t.pc == 0x204#16 && t.keys == 0#16) = true := by decide
theorem test_skp_fault : faults 0xE09E (withV [(0, 0x10#8)] base) (.keyIndexOutOfRange 0x10#8) = true := by decide
theorem test_sknp_on_skip : gives 0xE0A1 (withV [(0, 5#8)] { base with keys := 0x0008#16 })
    (fun t => t.pc == 0x204#16 && t.keys == 0#16) = true := by decide
theorem test_sknp_on_pressed : gives 0xE0A1
    (withV [(0, 5#8)] { base with keys := 0x0020#16, config := { defaultConfig with sknpClear := .onPressed } })
    (fun t => t.pc == 0x202#16 && t.keys == 0#16) = true := by decide

/-- KEYS = 0: Waiting, no change. -/
theorem test_ldVxK_waits : step (base.withFetchWord 16 0xF30A) = .next (base.withFetchWord 16 0xF30A) ∧
    (transact .step (base.withFetchWord 16 0xF30A)).2 = .waiting := ⟨rfl, rfl⟩
theorem test_ldVxK_lowest : gives 0xF30A { base with keys := 0x00A0#16 }
    (fun t => t.readV 3 == 5#8 && t.keys == 0#16 && t.pc == 0x202#16) = true := by decide
theorem test_ldVxDt : gives 0xF107 { base with dt := 0x3C#8, st := 1#8 } (fun t => t.readV 1 == 0x3C#8) = true := by decide
theorem test_ldDtVx : gives 0xF015 (withV [(0, 3#8)] base) (fun t => t.dt == 3#8 && t.st == 0#8) = true := by decide
theorem test_ldStVx : gives 0xF218 (withV [(2, 0x10#8)] base) (fun t => t.st == 0x10#8 && t.dt == 0#8) = true := by decide

/-! ### Host transactions (section 2.7) -/

/-- DT = 1, ST = 0xFF; and S9: a tick at zero stays at zero. -/
theorem test_tick :
    (transact .tickTimers { base with dt := 1#8, st := 0xFF#8 }).1.dt = 0#8 ∧
    (transact .tickTimers { base with dt := 1#8, st := 0xFF#8 }).1.st = 0xFE#8 ∧
    (transact .tickTimers base).1.dt = 0#8 := by decide

theorem test_press_twice : (transactAll [.pressKey 3, .pressKey 3] base).keys = 0x0008#16 := by decide

theorem test_press_16_is_refused : (transact (.pressKey 16) base).2 = .refused (.keyOutOfRange 16) := by decide

/-- S1. -/
theorem test_initialize_places_the_program :
    (transact (.init [0xAB#8, 0xCD#8]) base).1.mem.read 0x200 = 0xAB#8 ∧
    (transact (.init [0xAB#8, 0xCD#8]) base).1.mem.read 0x201 = 0xCD#8 ∧
    (transact (.init [0xAB#8, 0xCD#8]) base).1.pc = 0x200#16 := by decide

/-- The glyph of digit A, at 0x32 (R162). -/
theorem test_font_glyph_A :
    (List.range 5).map (fun k => State.reset.mem.read (0x32 + k)) = [0xF0#8, 0x90#8, 0xF0#8, 0x90#8, 0x90#8] := by decide

/-! ### Witnesses: encoding and step -/

theorem witness_DecodeOfEncode : WellFormed (.sys 0x123#12) ∧ WellFormed (.drw 15 15 0xF#4) := by decide

theorem witness_EncodeOfDecode : decode 0x0FFF#16 = .instr (.sys 0xFFF#12) ∧ decode 0xFF65#16 = .instr (.ldLoad 15) := by decide

/-- A word of each line of R59's table. -/
theorem witness_InvalidOpcodes_words : ∀ w ∈ [0x0F00, 0x01E0, 0x0FEE, 0x512F, 0x8128, 0x812F, 0x9121, 0xE19D, 0xF166],
    ListedInvalid w := by decide

/-- The last address that can be fetched from. -/
theorem witness_InvalidOpcodes_state : ({ base with pc := 0xFFE#16 }.withFetchWord 16 0x812F).run = .running ∧
    ({ base with pc := 0xFFE#16 }.withFetchWord 16 0x812F).pc.toNat ≤ 4094 ∧
    (0x812F#16).toNat = ({ base with pc := 0xFFE#16 }.withFetchWord 16 0x812F).opcodeAtPc := by decide

theorem witness_FetchIsBigEndian : ({ base with pc := 0xFFE#16 } : State).pc.toNat + 1 < 4096 ∧
    4096 ≤ ({ base with pc := 0xFFF#16 } : State).pc.toNat + 1 ∧ 4096 ≤ ({ base with pc := 0xFFFF#16 } : State).pc.toNat + 1 := by
  decide

theorem witness_fetches : Fetches ({ base with pc := 0xFFE#16 }.withFetchWord 16 0x00E0) .cls :=
  ⟨by decide, by decide, by decide⟩

theorem witness_StepRuns_stops :
    (({ base with pc := 0xFFF#16 } : State).run = .running ∧ 4095 ≤ ({ base with pc := 0xFFF#16 } : State).pc.toNat) ∧
    (base.run = .running ∧ base.pc.toNat ≤ 4094 ∧
      decode (BitVec.ofNat 16 base.opcodeAtPc) = .rejected (.invalidOpcode (BitVec.ofNat 16 base.opcodeAtPc))) ∧
    ({ base with run := .faulted .stackOverflow } : State).run = .faulted .stackOverflow := by decide

/-! ### Witnesses: the cause of each fault -/

theorem witness_cause_fetch_decode : (Fault.outOfBounds 0xFFF#16).Cause { base with pc := 0xFFF#16 } ∧
    (Fault.invalidOpcode 0#16).Cause base :=
  ⟨⟨by decide, by decide, by decide⟩, ⟨by decide, by decide, by decide, by decide⟩⟩

theorem witness_cause_stack : Fault.stackOverflow.Cause ({ base with sp := 16 }.withFetchWord 16 0x2FFF) ∧
    Fault.stackUnderflow.Cause (base.withFetchWord 16 0x00EE) :=
  ⟨⟨0xFFF#12, ⟨by decide, by decide, by decide⟩, by decide⟩, ⟨⟨by decide, by decide, by decide⟩, by decide⟩⟩

theorem witness_cause_memory : (Fault.memoryOutOfRange 4096).Cause ({ base with i := 0xFF1#16 }.withFetchWord 16 0xFF55) ∧
    (Fault.memoryOutOfRange 0xFFFF).Cause ({ base with i := 0xFFFF#16 }.withFetchWord 16 0xD011) :=
  ⟨⟨.ldStore 15, ⟨by decide, by decide, by decide⟩, firstOutOfRange_iff.mpr (by decide)⟩,
    ⟨.drw 0 1 1#4, ⟨by decide, by decide, by decide⟩, firstOutOfRange_iff.mpr (by decide)⟩⟩

theorem witness_cause_operand :
    (Fault.indexOverflow 0x10000).Cause ((withV [(0, 1#8)] { base with i := 0xFFFF#16 }).withFetchWord 16 0xF01E) ∧
    (Fault.fontDigitOutOfRange 16#8).Cause ((withV [(0, 16#8)] base).withFetchWord 16 0xF029) ∧
    (Fault.keyIndexOutOfRange 16#8).Cause ((withV [(0, 16#8)] base).withFetchWord 16 0xE09E) ∧
    (Fault.keyIndexOutOfRange 0xFF#8).Cause ((withV [(0, 0xFF#8)] base).withFetchWord 16 0xE0A1) :=
  ⟨⟨0, ⟨by decide, by decide, by decide⟩, by decide, by decide⟩, ⟨0, ⟨by decide, by decide, by decide⟩, by decide, by decide⟩,
    ⟨0, .inl ⟨by decide, by decide, by decide⟩, by decide, by decide⟩,
    ⟨0, .inr ⟨by decide, by decide, by decide⟩, by decide, by decide⟩⟩

/-! ### Witnesses: control flow -/

theorem witness_SysIsANoOp : (0x123#12).toNat % 0x100 ∉ [0x00, 0xE0, 0xEE] ∧ (0xF00#12).toNat % 0x100 = 0x00 ∧
    ((0x1E0#12).toNat % 0x100 ∈ [0xE0, 0xEE] ∧ (0x1E0#12).toNat / 0x100 ≠ 0) ∧
    ((0xFEE#12).toNat % 0x100 ∈ [0xE0, 0xEE] ∧ (0xFEE#12).toNat / 0x100 ≠ 0) := by decide

theorem witness_JpSetsPc : base.run = .running ∧ 4095 ≤ (0xFFF#12).toNat := by decide

theorem witness_Call : ({ base with sp := 15 } : State).sp.val < 16 ∧ ({ base with sp := 16 } : State).sp.val = 16 := by decide

theorem witness_Ret : ({ base with sp := 1 } : State).sp.val ≠ 0 ∧ ({ base with sp := 16 } : State).sp.val ≠ 0 ∧
    base.sp.val = 0 := by decide

theorem witness_RetReturns : ({ base with sp := 15 } : State).sp.val < 16 ∧ base.sp.val < 16 := by decide

/-- The least and the greatest target that cannot be fetched: 0xFFF + 0 and 0xFFF + 0xFF. -/
theorem witness_JpV0 :
    (∃ t, exec (.jpV0 0xFFF#12) base = .next t ∧ base.run = .running ∧ t.pc.toNat = 4095) ∧
    ∃ t, exec (.jpV0 0xFFF#12) (withV [(0, 0xFF#8)] base) = .next t ∧ t.pc.toNat = 0x10FE :=
  ⟨⟨_, rfl, by decide, by decide⟩, ⟨_, rfl, by decide⟩⟩

theorem witness_SkipsCompareTwoRegisters : 0 < 1 ∧ 1 < 16 ∧ 0 < 15 ∧ 15 < 16 := by decide

/-! ### Witnesses: arithmetic and logic -/

/-- The results of the logic, add, subtract and shift instructions are stated for x ≠ F. -/
theorem witness_x_is_not_F : (0 : RegIdx) ≠ 15 ∧ (14 : RegIdx) ≠ 15 := by decide

/-- With x = y = F, and V15 = 0x80: the sum carries. -/
theorem witness_AddFlag : ∃ t, exec (.addReg 15 15) (withV [(15, 0x80#8)] base) = .next t ∧ t.readV 15 = 1 ∧
    256 ≤ ((withV [(15, 0x80#8)] base).readV 15).toNat + ((withV [(15, 0x80#8)] base).readV 15).toNat :=
  ⟨_, rfl, by decide, by decide⟩

/-! ### Witnesses: the address register and memory -/

theorem witness_AddI : (withV [(0, 0xFF#8)] { base with i := 0xFF00#16 }).i.toNat +
      ((withV [(0, 0xFF#8)] { base with i := 0xFF00#16 }).readV 0).toNat ≤ 0xFFFF ∧
    0xFFFF < (withV [(0, 0xFF#8)] { base with i := 0xFF01#16 }).i.toNat +
      ((withV [(0, 0xFF#8)] { base with i := 0xFF01#16 }).readV 0).toNat := by decide

theorem witness_LdF : ((withV [(0, 15#8)] base).readV 0).toNat < 16 ∧ 16 ≤ ((withV [(0, 16#8)] base).readV 0).toNat := by decide

theorem witness_LdB : base.mem.wf = true ∧ effectiveAddr 0xFFD#16 2 < 4096 ∧
    FirstOutOfRange (effectiveAddr 0xFFE#16 0) 3 4096 ∧ FirstOutOfRange (effectiveAddr 0xFFFF#16 0) 3 0xFFFF :=
  ⟨by decide, by decide, firstOutOfRange_iff.mpr (by decide), firstOutOfRange_iff.mpr (by decide)⟩

/-- For FX55 and FX65, with x = 0 and with x = F. -/
theorem witness_LdStore_LdLoad : base.mem.wf = true ∧
    effectiveAddr 0xFFF#16 (0 : RegIdx).val < 4096 ∧ effectiveAddr 0xFF0#16 (15 : RegIdx).val < 4096 ∧
    FirstOutOfRange (effectiveAddr 0x1000#16 0) ((0 : RegIdx).val + 1) 4096 ∧
    FirstOutOfRange (effectiveAddr 0xFF1#16 0) ((15 : RegIdx).val + 1) 4096 :=
  ⟨by decide, by decide, by decide, firstOutOfRange_iff.mpr (by decide), firstOutOfRange_iff.mpr (by decide)⟩

theorem witness_StoreThenLoad : ∃ t, { base with i := 0xFFF#16 }.mem.wf = true ∧
    exec (.ldStore 0) { base with i := 0xFFF#16 } = .next t := ⟨_, by decide, rfl⟩

/-- FX55 at 0x200 with I = 0x202 writes the next instruction. -/
theorem witness_StoredBytesAreFetched : ∃ t, base.mem.wf = true ∧
    exec (.ldStore 1) (withV [(0, 0x12#8), (1, 0x02#8)] { base with i := 0x202#16 }) = .next t ∧ (0 : RegIdx) < 1 ∧
    t.pc.toNat = effectiveAddr 0x202#16 (0 : RegIdx).val ∧ base.run = .running ∧
    decode 0x1202#16 = .instr (.jp 0x202#12) := ⟨_, by decide, rfl, by decide, by decide, by decide, by decide⟩

/-! ### Witnesses: display -/

theorem witness_Drw : (∀ i, i < (0x0#4).toNat → effectiveAddr 0xFFFF#16 i < 4096) ∧
    (∀ i, i < (0xF#4).toNat → effectiveAddr 0xFF1#16 i < 4096) ∧
    FirstOutOfRange (effectiveAddr 0xFF2#16 0) (0xF#4).toNat 4096 ∧ FirstOutOfRange (effectiveAddr 0xFFFF#16 0) (0x1#4).toNat 0xFFFF :=
  ⟨by decide, by decide, firstOutOfRange_iff.mpr (by decide), firstOutOfRange_iff.mpr (by decide)⟩

/-- Both answers of VF occur: with pixel (0, 0) on, the sprite 0xC0 erases it; with it off, nothing is erased. -/
theorem witness_Drw_flag :
    (∃ t, exec (.drw 0 1 1#4) (withPixel 0 0 (withBytes 0x300 [0xC0#8] { base with i := 0x300#16 })) = .next t ∧
      (withPixel 0 0 base).disp.pixel 0 0 = true ∧ t.disp.pixel 0 0 = false) ∧
    (∃ t, exec (.drw 0 1 0#4) base = .next t ∧ t.disp = base.disp) :=
  ⟨⟨_, rfl, by decide, by decide⟩, ⟨_, rfl, rfl⟩⟩

/-- The second draw is at the same place, also when y is F and the flag keeps its value. -/
theorem witness_DrawingTwice :
    (∃ t, exec (.drw 0 1 1#4) (withBytes 0x300 [0xC0#8] { base with i := 0x300#16 }) = .next t ∧
      t.readV 0 = base.readV 0 ∧ t.readV 1 = base.readV 1) ∧
    ∃ t, exec (.drw 0 15 1#4) (withBytes 0x300 [0xC0#8] { base with i := 0x300#16 }) = .next t ∧
      t.readV 0 = base.readV 0 ∧ t.readV 15 = base.readV 15 :=
  ⟨⟨_, rfl, by decide, by decide⟩, ⟨_, rfl, by decide, by decide⟩⟩

/-! ### Witnesses: keypad -/

theorem witness_Skp_Sknp :
    (((withV [(0, 15#8)] base).readV 0).toNat < 16 ∧ (0x8000#16).getLsbD ((withV [(0, 15#8)] base).readV 0).toNat = true) ∧
    (((withV [(0, 15#8)] base).readV 0).toNat < 16 ∧ (0x7FFF#16).getLsbD ((withV [(0, 15#8)] base).readV 0).toNat = false) ∧
    16 ≤ ((withV [(0, 16#8)] base).readV 0).toNat := by decide

theorem witness_Sknp_parameter : ∀ c ∈ [SknpClear.onSkip, SknpClear.onPressed, SknpClear.never],
    ({ base with config := { defaultConfig with sknpClear := c } } : State).config.sknpClear = c := by decide

theorem witness_WaitForKey : base.keys = 0 ∧ ({ base with keys := 0x8000#16 } : State).keys ≠ 0 ∧
    ({ base with keys := 0x0001#16 } : State).keys ≠ 0 := by decide

/-! ### Witnesses: rules about all instructions, and invariants -/

theorem witness_exec_next : (∃ t, exec (.addReg 0 1) base = .next t) ∧ (2 : RegIdx) ∉ registersWritten (.addReg 0 1) ∧
    Part.memory ∉ partsWritten (.addReg 0 1) := ⟨⟨_, rfl⟩, by decide, by decide⟩

theorem witness_NoOtherInstructionReadsAPart : (∀ x, Instr.cls ≠ .ldStVx x) ∧ (∀ x, Instr.cls ≠ .ldVxDt x ∧ Instr.cls ≠ .ldDtVx x) ∧
    (Instr.cls ≠ .ret ∧ ∀ n, Instr.cls ≠ .call n) ∧ (Instr.ret ≠ .cls ∧ ∀ x y n, Instr.ret ≠ .drw x y n) ∧
    ∀ x, Instr.cls ≠ .skp x ∧ Instr.cls ≠ .sknp x ∧ Instr.cls ≠ .ldVxK x := by
  simp

theorem witness_start : (List.replicate 3584 0xFF#8).length ≤ 3584 := by rw [List.length_replicate]

theorem base_inv : base.Inv := ⟨by decide, by decide, by decide⟩

theorem witness_StepKeepsTheInvariant : ∃ s t, State.Inv s ∧ step s = .next t :=
  ⟨base.withFetchWord 16 0x6A42, _, ⟨by decide, by decide, by decide⟩, rfl⟩

theorem witness_TransactionsKeep : base.BlockInv ∧ ({ base with run := .faulted .stackOverflow, pc := 0xFFFF#16 } : State).BlockInv :=
  ⟨fun _ => base_inv, fun h => absurd h (by decide)⟩

/-! ### Witnesses: host interface and reset -/

theorem witness_Initialize : (List.replicate 3584 0xFF#8).length ≤ 3584 ∧ 3584 < (List.replicate 3585 0xFF#8).length ∧
    (0 : Nat) < (List.replicate 3584 0xFF#8).length := by
  simp only [List.length_replicate]
  decide

theorem witness_Ticks : base.run = .running := by decide

theorem witness_Press : base.run = .running ∧ (∀ k ∈ [15, 0, 15], k < 16) ∧ 16 ≤ 16 := by decide

theorem witness_Reads : base.run = .running := by decide

theorem witness_StepTransaction : (∃ t, step (base.withFetchWord 16 0x00E0) = .next t) ∧
    step base = .fault (.invalidOpcode 0#16) ∧ (transact .step (base.withFetchWord 16 0xF00A)).2 = .waiting :=
  ⟨⟨_, rfl⟩, rfl, rfl⟩

theorem witness_FaultIsSticky : (base.takeFault .stackOverflow).run = .faulted .stackOverflow ∧
    (∀ p, Transaction.init p ∉ [.step, .tickTimers, .pressKey 3, .readDisplay, .readTimers]) ∧
    ([0x12#8, 0x00#8] : List Byte).length ≤ 3584 := ⟨rfl, by simp, by decide⟩

theorem witness_Waiting : Fetches (base.withFetchWord 16 0xFF0A) (.ldVxK 15) ∧ (base.withFetchWord 16 0xFF0A).keys = 0 ∧ 15 < 16 :=
  ⟨⟨by decide, by decide, by decide⟩, by decide, by decide⟩

end Sys2Proof.Tests
end

section
/-! Memory (spec/20_memory.md): the proof of the obligation about the instruction fetch. -/

namespace Sys2Proof.Machine

/-- Settles O5: below the bound the fetch answers the two bytes joined high byte first, and at the bound it faults; the
two laws of `fetch16` give the two halves. -/
theorem fetchIsBigEndian : Obligations.FetchIsBigEndian := by
  intro s
  constructor
  · intro hpc
    exact ⟨_, State.fetch16_eq_ok.mpr ⟨hpc, rfl⟩, opcodeOfBytes_toNat _ _⟩
  · intro hpc
    exact State.fetch16_eq_error.mpr ⟨hpc, rfl⟩

end Sys2Proof.Machine
end

section
/-! Control flow (spec/40_control.md): facts about the step, the decoding of the control instructions, what jumps, skips, the
call and the return leave unchanged, and the proofs of the obligations about them. -/

namespace Sys2Proof.Machine

/-! ### The step (R70–R72) -/

/-- A running block whose PC cannot be fetched from faults at that PC (R71). -/
theorem step_outOfBounds {s : State} (hrun : s.run = .running) (hpc : 4095 ≤ s.pc.toNat) :
    step s = .fault (.outOfBounds s.pc) := by
  obtain ⟨-, hstep⟩ | ⟨op, hfetch, -⟩ := step_running hrun
  · exact hstep
  · have := (State.fetch16_eq_ok.mp hfetch).1
    omega

/-- A running block whose PC can be fetched from does what the decoding of the opcode at PC says (R72). -/
theorem step_fetched {s : State} (hrun : s.run = .running) (hpc : s.pc.toNat ≤ 4094) :
    (∃ r, decode (BitVec.ofNat 16 s.opcodeAtPc) = .rejected r ∧
      step s = .fault (.invalidOpcode (BitVec.ofNat 16 s.opcodeAtPc))) ∨
    ∃ i, decode (BitVec.ofNat 16 s.opcodeAtPc) = .instr i ∧ step s = exec i s := by
  obtain ⟨hpc', -⟩ | ⟨op, hfetch, hdecode⟩ := step_running hrun
  · omega
  · obtain ⟨-, rfl⟩ := State.fetch16_eq_ok.mp hfetch
    rwa [State.ofNat_opcodeAtPc]

theorem step_of_fetches {s : State} {i : Instr} (h : Fetches s i) : step s = exec i s := by
  obtain ⟨r, hr, -⟩ | ⟨j, hj, hstep⟩ := step_fetched h.running h.inMemory
  · cases hr.symm.trans h.decodes
  · cases hj.symm.trans h.decodes
    exact hstep

theorem step_of_rejected {s : State} {r : Reject} (hrun : s.run = .running) (hpc : s.pc.toNat ≤ 4094)
    (hr : decode (BitVec.ofNat 16 s.opcodeAtPc) = .rejected r) :
    step s = .fault (.invalidOpcode (BitVec.ofNat 16 s.opcodeAtPc)) := by
  obtain ⟨-, -, hstep⟩ | ⟨i, hi, -⟩ := step_fetched hrun hpc
  · exact hstep
  · cases hr.symm.trans hi

/-! ### Decoding of the control instructions (R53–R55) -/

theorem decode_wordNNN_jp (n : Addr12) : decode (wordNNN 0x1 n) = .instr (.jp n) := by
  simp [wordNNN_eq, decode]

theorem decode_wordNNN_call (n : Addr12) : decode (wordNNN 0x2 n) = .instr (.call n) := by
  simp [wordNNN_eq, decode]

theorem decode_wordNNN_jpV0 (n : Addr12) : decode (wordNNN 0xB n) = .instr (.jpV0 n) := by
  simp [wordNNN_eq, decode]

theorem decode_wordXNN_seImm (x : RegIdx) (nn : Byte) : decode (wordXNN 0x3 x nn.toNat) = .instr (.seImm x nn) := by
  simp [wordXNN_eq, decode]

theorem decode_wordXNN_sneImm (x : RegIdx) (nn : Byte) : decode (wordXNN 0x4 x nn.toNat) = .instr (.sneImm x nn) := by
  simp [wordXNN_eq, decode]

/-- Group 5 is SE with a register at low nibble 0 and invalid at every other one (R55, D13). -/
theorem decode_wordXYN_group5 (x y : RegIdx) (n : Nibble) : decode (wordXYN 0x5 x y n.toNat) =
    if n = 0x0#4 then .instr (.seReg x y) else .rejected (.invalidOpcode (wordXYN 0x5 x y n.toNat)) := by
  simp [wordXYN_eq, decode, decodeGroup5, invalid]

/-- Group 9 is SNE with a register at low nibble 0 and invalid at every other one (R55, D13). -/
theorem decode_wordXYN_group9 (x y : RegIdx) (n : Nibble) : decode (wordXYN 0x9 x y n.toNat) =
    if n = 0x0#4 then .instr (.sneReg x y) else .rejected (.invalidOpcode (wordXYN 0x9 x y n.toNat)) := by
  simp [wordXYN_eq, decode, decodeGroup9, invalid]

/-! ### Jumps (R76, R79) -/

/-- An advance alone changes nothing but PC (R74). -/
theorem Frame.advance_self (s : State) (a : Advance) : Frame [] [] (s.advance a).pc s (s.advance a) :=
  Frame.of_advance (fun _ _ => rfl) (fun p _ => by cases p <;> simp [Part.Same]) rfl

theorem zextAddr_eq_ofNat (n : Addr12) : zextAddr n = BitVec.ofNat 16 n.toNat := (BitVec.ofNat_toNat 16 n).symm

theorem zextAddr_toNat (n : Addr12) : (zextAddr n).toNat = n.toNat := BitVec.toNat_setWidth_of_le (by decide)

theorem zextByte_toNat (b : Byte) : (zextByte b).toNat = b.toNat := BitVec.toNat_setWidth_of_le (by decide)

/-- NNN plus a byte is at most 0x10FE, so the sum does not wrap (R79). -/
theorem zextAddr_add_zextByte_toNat (n : Addr12) (b : Byte) :
    (zextAddr n + zextByte b).toNat = n.toNat + b.toNat := by
  have := n.isLt
  have := b.isLt
  rw [BitVec.toNat_add, zextAddr_toNat, zextByte_toNat]
  omega

theorem execJp_eq (n : Addr12) (s : State) : exec (.jp n) s = .next (s.advance (.jump (zextAddr n))) := rfl

theorem execJpV0_eq (n : Addr12) (s : State) :
    exec (.jpV0 n) s = .next (s.advance (.jump (zextAddr n + zextByte (s.readV 0)))) := rfl

/-- A jump of a running block to a target that cannot be fetched faults at the step after it (R71, R76, R79). -/
theorem step_after_jump_outOfBounds {s : State} {target : Word} (hrun : s.run = .running) (h : 4095 ≤ target.toNat) :
    step (s.advance (.jump target)) = .fault (.outOfBounds target) :=
  step_outOfBounds (s := s.advance (.jump target)) (by rw [State.advance_run, hrun]) h

/-! ### Skips (R80–R83) -/

/-- A conditional skip moves PC by 4 when its condition holds and by 2 otherwise, and changes nothing else. -/
theorem skipIf_frame (c : Bool) (s : State) :
    ∃ t, skipIf c s = .next t ∧ Frame [] [] (if c then s.pc + 4 else s.pc + 2) s t := by
  refine ⟨_, skipIf_eq c s, ?_⟩
  cases c with
  | false => exact Frame.advance_self s .next
  | true => exact Frame.advance_self s .skip

theorem skipIf_beq_frame (a b : Byte) (s : State) :
    ∃ t, skipIf (a == b) s = .next t ∧ Frame [] [] (if a.toNat = b.toNat then s.pc + 4 else s.pc + 2) s t := by
  simpa [BitVec.toNat_inj] using skipIf_frame (a == b) s

theorem skipIf_bne_frame (a b : Byte) (s : State) :
    ∃ t, skipIf (a != b) s = .next t ∧ Frame [] [] (if a.toNat = b.toNat then s.pc + 2 else s.pc + 4) s t := by
  simpa [BitVec.toNat_inj] using skipIf_frame (a != b) s

/-! ### Call and return (R77, R78) -/

/-- What each slot holds after a write to the slot at position `j` of the stack. -/
theorem State.slot_of_stack_set {s t : State} {j : Nat} {w : Word} (hj : j < 16)
    (ht : t.stack = s.stack.set j w hj) (k : Nat) : t.slot k = if k = j + 1 then some w else s.slot k := by
  cases k with
  | zero => simp [State.slot]
  | succ k => simp [State.slot, ht, Vector.getElem?_set, eq_comm]

/-! ### The obligations -/

/-- Settles O6: a fetch past the last address faults, and below it the step follows the decoding. -/
theorem stepRunsTheFetchedInstruction : Obligations.StepRunsTheFetchedInstruction := fun _ =>
  ⟨fun _ => step_of_fetches, step_outOfBounds, step_of_rejected, fun _ => step_faulted⟩

/-- Settles O10: JP is an advance to NNN and no more, and the fault of a far target is that of the next fetch. -/
theorem jpSetsPc : Obligations.JpSetsPc := by
  intro n
  rw [← zextAddr_eq_ofNat, ← zextAddr_toNat]
  exact ⟨decode_wordNNN_jp n, fun s =>
    ⟨_, execJp_eq n s, Frame.advance_self s (.jump (zextAddr n)), step_after_jump_outOfBounds⟩⟩

/-- Settles O11: below 16 the push writes one slot, the new top, and at 16 it overflows. -/
theorem callPushesItsOwnAddress : Obligations.CallPushesItsOwnAddress := by
  refine fun n => ⟨decode_wordNNN_call n, fun s => ⟨fun hroom => ?_, execCall_full n s⟩⟩
  refine ⟨_, execCall_ok n s hroom, ?_, rfl, ?_, fun k hk => ?_⟩
  · refine Frame.of_advance (fun _ _ => rfl) (fun p hp => ?_) (zextAddr_eq_ofNat n)
    cases p with
    | stack | sp => exact absurd hp (by decide)
    | _ => simp [Part.Same]
  · exact (State.slot_of_stack_set hroom rfl _).trans (if_pos rfl)
  · exact (State.slot_of_stack_set hroom rfl k).trans (if_neg hk)

/-- Settles O12: RET jumps to the value of the top slot and counts SP down, and at SP = 0 it underflows. -/
theorem retPopsTheCallAddress : Obligations.RetPopsTheCallAddress := by
  refine ⟨rfl, fun s => ⟨fun hne => ?_, execRet_empty s⟩⟩
  refine ⟨_, execRet_ok s hne, rfl, ?_, ?_⟩
  · exact State.slot_eq s s.sp.val (by omega) (by omega)
  · refine Frame.of_advance (fun _ _ => rfl) (fun p hp => ?_) rfl
    cases p with
    | sp => exact absurd hp (by decide)
    | _ => simp [Part.Same]

/-- Settles O14: JP V0 is an advance to the unwrapped sum and no more, and the fault of a far sum is that of the next
fetch. -/
theorem jpV0AddsV0 : Obligations.JpV0AddsV0 := fun n =>
  ⟨decode_wordNNN_jpV0 n, fun s => ⟨_, execJpV0_eq n s, zextAddr_add_zextByte_toNat n (s.readV 0),
    Frame.advance_self s _, step_after_jump_outOfBounds⟩⟩

/-- Settles O15: SE and SNE with a byte are the two conditional skips on the register and the byte. -/
theorem skipsCompareWithAByte : Obligations.SkipsCompareWithAByte := fun x nn =>
  ⟨decode_wordXNN_seImm x nn, decode_wordXNN_sneImm x nn, fun s =>
    ⟨skipIf_beq_frame (s.readV x) nn s, skipIf_bne_frame (s.readV x) nn s⟩⟩

/-- Settles O16: groups 5 and 9 decode at low nibble 0 only, to the two conditional skips on two registers. -/
theorem skipsCompareTwoRegisters : Obligations.SkipsCompareTwoRegisters := by
  refine fun x y => ⟨decode_wordXYN_group5 x y 0x0#4, decode_wordXYN_group9 x y 0x0#4, fun n hpos hlt => ?_, fun s =>
    ⟨skipIf_beq_frame (s.readV x) (s.readV y) s, skipIf_bne_frame (s.readV x) (s.readV y) s⟩⟩
  obtain ⟨m, rfl⟩ : ∃ m : Nibble, n = m.toNat := ⟨BitVec.ofNatLT n hlt, rfl⟩
  have hm : m ≠ 0x0#4 := by
    rintro rfl
    exact absurd hpos (by decide)
  exact ⟨by rw [decode_wordXYN_group5, if_neg hm], by rw [decode_wordXYN_group9, if_neg hm]⟩

end Sys2Proof.Machine
end

section
/-! Arithmetic and logic (spec/41_alu.md): decoding of the arithmetic instructions, the value of each flag as a number, what
the end of an instruction that writes a register, or a result and a flag, leaves unchanged, and the proofs of the obligations
about them. -/

namespace Sys2Proof.Machine

/-! ### Decoding of the arithmetic instructions (R53, R56) -/

theorem decode_wordXNN_ldImm (x : RegIdx) (nn : Byte) : decode (wordXNN 0x6 x nn.toNat) = .instr (.ldImm x nn) := by
  simp [wordXNN_eq, decode]

theorem decode_wordXNN_addImm (x : RegIdx) (nn : Byte) : decode (wordXNN 0x7 x nn.toNat) = .instr (.addImm x nn) := by
  simp [wordXNN_eq, decode]

/-- A word of group 8 decodes to what the group's table says of its fields (R56). -/
theorem decode_wordXYN_group8 (x y : RegIdx) (n : Nibble) {i : Instr} (h : decodeGroup8 (formXYN 0x8#4 x y n) = .instr i) :
    decode (wordXYN 0x8 x y n.toNat) = .instr i := by
  simpa [wordXYN_eq, decode] using h

/-! ### The flags as numbers (R97–R101) -/

theorem flagByte_toNat (c : Bool) : (flagByte c).toNat = if c then 1 else 0 := by
  cases c <;> rfl

theorem addCarry_toNat (a b : Byte) :
    (addCarry a b).toNat = if (a.toNat + b.toNat) % 256 < min a.toNat b.toNat then 1 else 0 := by
  simp [addCarry, flagByte_toNat]

theorem noBorrow_toNat (a b : Byte) : (noBorrow a b).toNat = if b.toNat ≤ a.toNat then 1 else 0 := by
  simp [noBorrow, flagByte_toNat]

/-- A flag that is bit k of a byte, as a digit of the byte's number. -/
theorem flagByte_getLsbD_toNat (t : Byte) (k : Nat) : (flagByte (t.getLsbD k)).toNat = t.toNat / 2 ^ k % 2 := by
  rw [flagByte_toNat, BitVec.getLsbD, Nat.testBit_eq_decide_div_mod_eq]
  rcases Nat.mod_two_eq_zero_or_one (t.toNat / 2 ^ k) with h | h <;> simp [h]

theorem shiftedOutLow_toNat (t : Byte) : (shiftedOutLow t).toNat = t.toNat % 2 := by
  rw [shiftedOutLow, flagByte_getLsbD_toNat, pow_zero, Nat.div_one]

theorem shiftedOutHigh_toNat (t : Byte) : (shiftedOutHigh t).toNat = t.toNat / 128 := by
  have hflag := flagByte_getLsbD_toNat t 7
  have := t.isLt
  rw [shiftedOutHigh]
  omega

/-! ### The difference as a number (R98, R100) -/

theorem byte_sub_toNat (a b : Byte) : ((a - b).toNat : Int) = ((a.toNat : Int) - b.toNat) % 256 := by
  have := b.isLt
  rw [BitVec.toNat_sub]
  omega

/-! ### Writing one register (R91–R93) -/

/-- An instruction that ends with one register written: the register holds the value, and only PC moves besides. -/
theorem complete_writeV (s : State) (x : RegIdx) (b : Byte) :
    ∃ t, complete (s.writeV x b) .next = .next t ∧ t.readV x = b ∧ Frame [x] [] (s.pc + 2) s t := by
  refine ⟨_, complete_eq _ _, by simp, Frame.of_advance (fun z hz => ?_) (fun p _ => ?_) rfl⟩
  · exact State.readV_writeV_ne s x z b (by simpa using hz)
  · cases p <;> simp [Part.Same]

/-! ### Writing a result and a flag (R90, R94–R101) -/

/-- An instruction that ends with a result and a flag written: VF holds the flag, Vx the result unless x = F, and only PC
moves besides (D3). -/
theorem complete_writeResultFlag (s : State) (x : RegIdx) (result flag : Byte) :
    ∃ t, complete (s.writeResultFlag x result flag) .next = .next t ∧ Frame [x, 15] [] (s.pc + 2) s t ∧
      (x ≠ 15 → t.readV x = result) ∧ t.readV 15 = flag := by
  refine ⟨_, complete_eq _ _, Frame.of_advance (fun z hz => ?_) (fun p _ => ?_) rfl, fun hx => ?_, ?_⟩
  · obtain ⟨hzx, hzF⟩ : z ≠ x ∧ z ≠ 15 := by simpa using hz
    rw [State.readV_writeResultFlag, if_neg hzF, if_neg hzx]
  · cases p <;> simp [Part.Same]
  · rw [State.readV_advance, State.readV_writeResultFlag, if_neg hx, if_pos rfl]
  · rw [State.readV_advance, State.readV_writeResultFlag, if_pos rfl]

/-- The logic group: the bits of the result are given, and VF is cleared (R94–R96). -/
theorem complete_bitwise (s : State) (x : RegIdx) {result : Byte} {bit : Nat → Bool}
    (hbit : ∀ k, result.getLsbD k = bit k) :
    ∃ t, complete (s.writeResultFlag x result 0x00#8) .next = .next t ∧ t.readV 15 = 0 ∧
      Frame [x, 15] [] (s.pc + 2) s t ∧ (x ≠ 15 → ∀ k, (t.readV x).getLsbD k = bit k) := by
  obtain ⟨t, hnext, hframe, hresult, hflag⟩ := complete_writeResultFlag s x result 0x00#8
  exact ⟨t, hnext, hflag, hframe, fun hx k => by rw [hresult hx, hbit]⟩

/-- Both subtractions: the difference modulo 256, and VF says that no borrow was needed (R98, R100). -/
theorem complete_subtract (s : State) (x : RegIdx) (a b : Byte) :
    ∃ t, complete (s.writeResultFlag x (a - b) (noBorrow a b)) .next = .next t ∧ Frame [x, 15] [] (s.pc + 2) s t ∧
      (x ≠ 15 → ((t.readV x).toNat : Int) = ((a.toNat : Int) - b.toNat) % 256) ∧
      (t.readV 15).toNat = if b.toNat ≤ a.toNat then 1 else 0 := by
  obtain ⟨t, hnext, hframe, hresult, hflag⟩ := complete_writeResultFlag s x (a - b) (noBorrow a b)
  exact ⟨t, hnext, hframe, fun hx => by rw [hresult hx, byte_sub_toNat], by rw [hflag, noBorrow_toNat]⟩

/-- The shift to the right: half the byte, and VF is the bit shifted out (R99). -/
theorem complete_shiftRight (s : State) (x : RegIdx) (b : Byte) :
    ∃ t, complete (s.writeResultFlag x (b >>> 1) (shiftedOutLow b)) .next = .next t ∧
      Frame [x, 15] [] (s.pc + 2) s t ∧ (x ≠ 15 → (t.readV x).toNat = b.toNat / 2) ∧
      (t.readV 15).toNat = b.toNat % 2 := by
  obtain ⟨t, hnext, hframe, hresult, hflag⟩ := complete_writeResultFlag s x (b >>> 1) (shiftedOutLow b)
  exact ⟨t, hnext, hframe, fun hx => by rw [hresult hx, BitVec.toNat_ushiftRight, Nat.shiftRight_one],
    by rw [hflag, shiftedOutLow_toNat]⟩

/-- The shift to the left: twice the byte modulo 256, and VF is the bit shifted out (R101). -/
theorem complete_shiftLeft (s : State) (x : RegIdx) (b : Byte) :
    ∃ t, complete (s.writeResultFlag x (b <<< 1) (shiftedOutHigh b)) .next = .next t ∧
      Frame [x, 15] [] (s.pc + 2) s t ∧ (x ≠ 15 → (t.readV x).toNat = b.toNat * 2 % 256) ∧
      (t.readV 15).toNat = b.toNat / 128 := by
  obtain ⟨t, hnext, hframe, hresult, hflag⟩ := complete_writeResultFlag s x (b <<< 1) (shiftedOutHigh b)
  exact ⟨t, hnext, hframe, fun hx => by rw [hresult hx, BitVec.toNat_shiftLeft, Nat.shiftLeft_eq, pow_one],
    by rw [hflag, shiftedOutHigh_toNat]⟩

/-! ### The obligations -/

/-- Settles O17: both instructions write one register and no more, so VF keeps its value unless it is that register. -/
theorem loadAndAddAByte : Obligations.LoadAndAddAByte := by
  refine fun x nn => ⟨decode_wordXNN_ldImm x nn, decode_wordXNN_addImm x nn, fun s => ⟨complete_writeV s x nn, ?_⟩⟩
  obtain ⟨t, hnext, hvalue, hframe⟩ := complete_writeV s x (s.readV x + nn)
  exact ⟨t, hnext, by rw [hvalue, BitVec.toNat_add], hframe⟩

/-- Settles O18: LD writes the value of Vy to Vx and no more. -/
theorem ldCopiesARegister : Obligations.LdCopiesARegister := fun x y =>
  ⟨decode_wordXYN_group8 x y 0x0#4 (by simp [decodeGroup8]), fun s => complete_writeV s x (s.readV y)⟩

/-- Settles O19: the three instructions differ in the bits of the result alone, and the flag written last is 0. -/
theorem logicGroupClearsVf : Obligations.LogicGroupClearsVf := fun x y =>
  ⟨decode_wordXYN_group8 x y 0x1#4 (by simp [decodeGroup8]), decode_wordXYN_group8 x y 0x2#4 (by simp [decodeGroup8]),
    decode_wordXYN_group8 x y 0x3#4 (by simp [decodeGroup8]), fun s =>
    ⟨complete_bitwise s x fun _ => BitVec.getLsbD_or, complete_bitwise s x fun _ => BitVec.getLsbD_and,
      complete_bitwise s x fun _ => BitVec.getLsbD_xor⟩⟩

/-- Settles O20: the flag written last compares the wrapped sum of the old operands with the smaller of them. -/
theorem addSetsVfByTheWrappedSum : Obligations.AddSetsVfByTheWrappedSum := by
  refine fun x y => ⟨decode_wordXYN_group8 x y 0x4#4 (by simp [decodeGroup8]), fun s => ?_⟩
  obtain ⟨t, hnext, hframe, hresult, hflag⟩ :=
    complete_writeResultFlag s x (s.readV x + s.readV y) (addCarry (s.readV x) (s.readV y))
  exact ⟨t, hnext, hframe, fun hx => by rw [hresult hx, BitVec.toNat_add], by rw [hflag, addCarry_toNat]⟩

/-- Settles O22: SUB and SUBN are one subtraction with its operands exchanged. -/
theorem subtractSetsVfToNoBorrow : Obligations.SubtractSetsVfToNoBorrow := fun x y =>
  ⟨decode_wordXYN_group8 x y 0x5#4 (by simp [decodeGroup8]), decode_wordXYN_group8 x y 0x7#4 (by simp [decodeGroup8]),
    fun s =>
    ⟨complete_subtract s x (s.readV x) (s.readV y), complete_subtract s x (s.readV y) (s.readV x)⟩⟩

/-- Settles O23: the two shifts take the old value of Vy, for the result and for the flag written last. -/
theorem shiftsSetVfToTheBitShiftedOut : Obligations.ShiftsSetVfToTheBitShiftedOut := fun x y =>
  ⟨decode_wordXYN_group8 x y 0x6#4 (by simp [decodeGroup8]), decode_wordXYN_group8 x y 0xE#4 (by simp [decodeGroup8]),
    fun s =>
    ⟨complete_shiftRight s x (s.readV y), complete_shiftLeft s x (s.readV y)⟩⟩

end Sys2Proof.Machine
end

section
/-! The address register and memory (spec/42_memory_ops.md): decoding of these instructions, what a write to I or to memory
leaves unchanged, what a block of bytes stored or loaded holds, and the proofs of the obligations about them. -/

namespace Sys2Proof.Machine

/-! ### Decoding (R53, R58) -/

theorem decode_wordNNN_ldI (n : Addr12) : decode (wordNNN 0xA n) = .instr (.ldI n) := by
  simp [wordNNN_eq, decode]

/-- A word of group F decodes to what the group's table says of its function byte (R58). -/
theorem decode_wordXNN_groupF (x : RegIdx) (f : Byte) {i : Instr} (h : decodeGroupF (formXNN 0xF#4 x f) = .instr i) :
    decode (wordXNN 0xF x f.toNat) = .instr i := by
  simpa [wordXNN_eq, decode] using h

/-! ### Numbers that fit in a word -/

theorem toNat_ofNat_of_lt {w n : Nat} (h : n < 2 ^ w) : (BitVec.ofNat w n).toNat = n := by
  rw [BitVec.toNat_ofNat, Nat.mod_eq_of_lt h]

/-- The three digits of a byte as numbers: none is larger than the byte, so each fits in one (R113). -/
theorem bcdDigits_getD_toNat (b : Byte) :
    ((bcdDigits b).getD 0 0).toNat = b.toNat / 100 ∧ ((bcdDigits b).getD 1 0).toNat = b.toNat / 10 % 10 ∧
      ((bcdDigits b).getD 2 0).toNat = b.toNat % 10 := by
  have := b.isLt
  exact ⟨toNat_ofNat_of_lt (by omega), toNat_ofNat_of_lt (by omega), toNat_ofNat_of_lt (by omega)⟩

/-! ### Writing memory and I (R110–R114) -/

theorem execLdI_eq (n : Addr12) (s : State) : exec (.ldI n) s = .next ({ s with i := zextAddr n }.advance .next) := rfl

/-- An instruction that ends with memory and I written changes, besides PC, only the one of the two whose value is new. -/
theorem Frame.writeMemoryIndex {parts : List Part} {s : State} {m : Memory} {w : Word}
    (hmem : .memory ∉ parts → m = s.mem) (hindex : .index ∉ parts → w = s.i) :
    Frame [] parts (s.pc + 2) s ({ s with mem := m, i := w }.advance .next) := by
  refine Frame.of_advance (fun _ _ => rfl) (fun p hp => ?_) rfl
  cases p with
  | memory => simp [Part.Same, hmem hp]
  | index => exact hindex hp
  | _ => simp [Part.Same]

theorem Frame.writeIndex (s : State) (w : Word) : Frame [] [.index] (s.pc + 2) s ({ s with i := w }.advance .next) :=
  Frame.writeMemoryIndex (fun _ => rfl) (by simp)

/-! ### The bytes of a stored block (R113, R114) -/

theorem Memory.read_writeAll_inside {m : Memory} {a k : Nat} {bs : List Byte} (hm : m.wf = true)
    (hfit : a + bs.length ≤ 4096) (hk : k < bs.length) : (m.writeAll a bs).read (a + k) = bs.getD k 0 := by
  rw [Memory.read_writeAll hm hfit, if_pos (by omega), Nat.add_sub_cancel_left]

theorem Memory.read_writeAll_outside {m : Memory} {a c : Nat} {bs : List Byte} (hm : m.wf = true)
    (hfit : a + bs.length ≤ 4096) (hc : ∀ k, k < bs.length → c ≠ a + k) : (m.writeAll a bs).read c = m.read c := by
  have hout : ¬ (a ≤ c ∧ c < a + bs.length) := fun hin => hc (c - a) (by omega) (by omega)
  rw [Memory.read_writeAll hm hfit, if_neg hout]

/-! ### The registers of a loaded block (R115) -/

theorem mem_upTo {x z : RegIdx} : z ∈ upTo x ↔ z ≤ x := by
  simp [upTo]

/-- The registers after the bytes from address `a` on are loaded into V0 to Vx. -/
theorem State.readV_loadBlock (s : State) (a : Nat) (x z : RegIdx) :
    (s.writeBlock 0 ((List.range' a (x.val + 1)).map s.mem.read)).readV z =
      if z ≤ x then s.mem.read (a + z.val) else s.readV z := by
  rw [State.readV_writeBlock]
  by_cases hz : z ≤ x
  · have hlt : z.val < x.val + 1 := Nat.lt_succ_of_le hz
    simp [hz, hlt, List.getD_eq_getElem?_getD]
  · have hge : ¬ z.val < x.val + 1 := fun hlt => hz (Nat.le_of_lt_succ hlt)
    simp [hz, hge]

/-- An instruction that ends with a block loaded into V0 to Vx and I written changes, besides PC, only these. -/
theorem Frame.loadBlock (s : State) (a : Nat) (x : RegIdx) (w : Word) :
    Frame (upTo x) [.index] (s.pc + 2) s
      ({ s.writeBlock 0 ((List.range' a (x.val + 1)).map s.mem.read) with i := w }.advance .next) := by
  have hregs := State.readV_loadBlock s a x
  obtain ⟨v, hv⟩ := State.writeBlock_v_only s 0 ((List.range' a (x.val + 1)).map s.mem.read)
  rw [hv] at hregs ⊢
  refine Frame.of_advance (fun z hz => ?_) (fun p hp => ?_) rfl
  · exact (hregs z).trans (if_neg fun hle => hz (mem_upTo.mpr hle))
  · cases p with
    | index => exact absurd hp (by decide)
    | _ => simp [Part.Same]

/-! ### The obligations -/

/-- Settles O25: NNN is zero-extended into I, and nothing else is written. -/
theorem ldISetsI : Obligations.LdISetsI := fun n =>
  ⟨decode_wordNNN_ldI n, fun s => ⟨_, execLdI_eq n s, zextAddr_toNat n, Frame.writeIndex s (zextAddr n)⟩⟩

/-- Settles O26: a sum of at most 0xFFFF is what I then holds, and a larger one faults before anything is written. -/
theorem addIAddsOrOverflows : Obligations.AddIAddsOrOverflows := by
  refine fun x => ⟨decode_wordXNN_groupF x 0x1E#8 (by simp [decodeGroupF]), fun s =>
    ⟨fun hfit => ?_, execAddI_overflow x s⟩⟩
  exact ⟨_, execAddI_ok x s hfit, toNat_ofNat_of_lt (Nat.lt_succ_of_le hfit), Frame.writeIndex s _⟩

/-- Settles O27: five times a digit fits in I, and a value that is no digit faults. -/
theorem ldFPointsAtTheGlyph : Obligations.LdFPointsAtTheGlyph := by
  refine fun x => ⟨decode_wordXNN_groupF x 0x29#8 (by simp [decodeGroupF]), fun s =>
    ⟨fun hdigit => ?_, execLdF_fault x s⟩⟩
  exact ⟨_, execLdF_ok x s hdigit, toNat_ofNat_of_lt (by omega), Frame.writeIndex s _⟩

/-- Settles O28: the block stored at I is the list of the three digits. -/
theorem ldBStoresDecimalDigits : Obligations.LdBStoresDecimalDigits := by
  refine fun x => ⟨decode_wordXNN_groupF x 0x33#8 (by simp [decodeGroupF]), fun s hwf =>
    ⟨fun hin => ?_, fun a ha => ?_⟩⟩
  · have hfit : s.i.toNat + (bcdDigits (s.readV x)).length ≤ 4096 := hin
    have hstored : ∀ k, k < 3 → (s.mem.writeAll s.i.toNat (bcdDigits (s.readV x))).read (effectiveAddr s.i k) =
        (bcdDigits (s.readV x)).getD k 0 := fun _ => Memory.read_writeAll_inside hwf hfit
    obtain ⟨hhundreds, htens, hones⟩ := bcdDigits_getD_toNat (s.readV x)
    refine ⟨_, execLdB_ok x s hfit, Frame.writeMemoryIndex (by simp) (fun _ => rfl),
      (congrArg BitVec.toNat (hstored 0 (by decide))).trans hhundreds,
      (congrArg BitVec.toNat (hstored 1 (by decide))).trans htens,
      (congrArg BitVec.toNat (hstored 2 (by decide))).trans hones, fun a ha => ?_⟩
    refine Memory.read_writeAll_outside hwf hfit fun k (hk : k < 3) hak => ha ?_
    simp only [effectiveAddr, List.mem_cons]
    omega
  · obtain ⟨hover, -, rfl⟩ := firstOutOfRange_iff.mp ha
    exact execLdB_fault x s hover

/-- Settles O29: the block stored at I is V0 to Vx, and I + x + 1 still fits in 16 bits. -/
theorem ldStoreStoresTheBlock : Obligations.LdStoreStoresTheBlock := by
  refine fun x => ⟨decode_wordXNN_groupF x 0x55#8 (by simp [decodeGroupF]), fun s hwf =>
    ⟨fun (hin : s.i.toNat + x.val < 4096) => ?_, fun a ha => ?_⟩⟩
  · have hlen : (s.regBlock x).length = x.val + 1 := s.regBlock_length x
    have hfit : s.i.toNat + (s.regBlock x).length ≤ 4096 := by omega
    refine ⟨_, execLdStore_ok x s hin, Frame.writeMemoryIndex (by simp) (by simp), toNat_ofNat_of_lt (by omega),
      fun k hk => ?_, fun a ha => ?_⟩
    · have hkin : k.val < (s.regBlock x).length := hlen ▸ Nat.lt_succ_of_le hk
      exact (Memory.read_writeAll_inside hwf hfit hkin).trans (s.regBlock_getD x k hk)
    · exact Memory.read_writeAll_outside hwf hfit fun k hk =>
        ha ⟨k, by omega⟩ (Nat.le_of_lt_succ (hlen ▸ hk))
  · obtain ⟨hover, -, rfl⟩ := firstOutOfRange_iff.mp ha
    exact execLdStore_fault x s (Nat.le_of_lt_succ hover)

/-- Settles O30: V0 to Vx are the bytes of the block loaded from I, and I + x + 1 still fits in 16 bits. -/
theorem ldLoadLoadsTheBlock : Obligations.LdLoadLoadsTheBlock := by
  refine fun x => ⟨decode_wordXNN_groupF x 0x65#8 (by simp [decodeGroupF]), fun s =>
    ⟨fun (hin : s.i.toNat + x.val < 4096) => ?_, fun a ha => ?_⟩⟩
  · exact ⟨_, execLdLoad_ok x s hin, Frame.loadBlock s _ x _, toNat_ofNat_of_lt (by omega), fun k hk =>
      (State.readV_loadBlock s s.i.toNat x k).trans (if_pos hk)⟩
  · obtain ⟨hover, -, rfl⟩ := firstOutOfRange_iff.mp ha
    exact execLdLoad_fault x s (Nat.le_of_lt_succ hover)

end Sys2Proof.Machine
end

section
/-! Display (spec/43_display.md): decoding of DRW, what a write to the display leaves unchanged, what DRW draws and when it
turns a pixel off, and the proofs of the obligations about CLS and DRW. -/

namespace Sys2Proof.Machine

/-! ### Decoding (R53) -/

theorem decode_wordXYN_drw (x y : RegIdx) (n : Nibble) : decode (wordXYN 0xD x y n.toNat) = .instr (.drw x y n) := by
  simp [wordXYN_eq, decode]

/-! ### Writing the display (R120, R121) -/

theorem execCls_eq (s : State) : exec .cls s = .next ({ s with disp := Display.blank }.advance .next) := rfl

/-- An instruction that ends with the display and registers written changes, besides PC, only these. -/
theorem Frame.writeDisplay {regs : List RegIdx} {s : State} {v : Vector Byte 16} (d : Display)
    (hregs : ∀ z, z ∉ regs → ({ s with v := v } : State).readV z = s.readV z) :
    Frame regs [.display] (s.pc + 2) s ({ s with disp := d, v := v }.advance .next) := by
  refine Frame.of_advance hregs (fun p hp => ?_) rfl
  cases p with
  | display => exact absurd hp (by decide)
  | _ => simp [Part.Same]

/-! ### What DRW draws (R121, R122) -/

/-- The display after DRW Vx, Vy, n, and whether the draw turns a pixel off. -/
def State.drawn (s : State) (x y : RegIdx) (n : Nibble) : Display × Bool :=
  s.disp.drawSprite (originRow (s.readV y)) (originColumn (s.readV x)) (s.spriteBytes n)

/-- A pixel is on after the draw exactly when one and not both of the two are on: the pixel before, and the sprite there. -/
theorem State.pixel_drawn (s : State) (x y : RegIdx) (n : Nibble) {r c : Nat} (hr : r < 32) (hc : c < 64) :
    (s.drawn x y n).1.pixel r c = true ↔ ¬ (s.disp.pixel r c = true ↔ SpriteOn s x y n r c) := by
  rw [State.drawn, Display.pixel_drawSprite _ _ _ _ hr hc, Bool.xor_iff_ne, Ne, Bool.eq_iff_iff, spriteCovers_iff]

/-- A sprite turns a pixel off where it covers one that was on, and only there. -/
theorem State.erased_drawn (s : State) (x y : RegIdx) (n : Nibble) : (s.drawn x y n).2 = true ↔
    ∃ r c, r < 32 ∧ c < 64 ∧ s.disp.pixel r c = true ∧ (s.drawn x y n).1.pixel r c = false := by
  rw [State.drawn, Display.erased_drawSprite]
  refine exists₂_congr fun r c => and_congr_right fun hr => and_congr_right fun hc => and_congr_right fun hon => ?_
  rw [Display.pixel_drawSprite _ _ _ _ hr hc, hon, Bool.true_xor, Bool.not_eq_false']

/-- DRW whose sprite stands in memory ends with the sprite drawn and VF written (R121). -/
theorem execDrw_next (x y : RegIdx) (n : Nibble) (s : State) (hin : ∀ i, i < n.toNat → effectiveAddr s.i i < 4096) :
    ∃ t, exec (.drw x y n) s = .next t ∧ Frame [15] [.display] (s.pc + 2) s t ∧ t.disp = (s.drawn x y n).1 ∧
      t.readV 15 = flagByte (s.drawn x y n).2 := by
  have hfit : n.toNat = 0 ∨ s.i.toNat + n.toNat ≤ 4096 := by
    have hlast := hin (n.toNat - 1)
    rw [effectiveAddr] at hlast
    omega
  refine ⟨_, execDrw_ok x y n s hfit, Frame.writeDisplay _ fun z hz => ?_, State.advance_disp _ _, by simp [State.drawn]⟩
  exact State.readV_writeV_ne s 15 z _ (by simpa using hz)

/-! ### The obligations -/

/-- Settles O33: CLS writes the blank display and no register, so VF keeps its value. -/
theorem clsClearsTheDisplay : Obligations.ClsClearsTheDisplay :=
  ⟨by decide, fun s => ⟨_, execCls_eq s, Frame.writeDisplay _ fun _ _ => rfl, Display.pixel_blank⟩⟩

/-- Settles O34: the pixels are those of the drawn sprite, VF is whether the draw turned one off, and a sprite that does not
stand in memory faults before anything is drawn. -/
theorem drwXorsTheSpriteAndReportsCollision : Obligations.DrwXorsTheSpriteAndReportsCollision := by
  refine fun x y n => ⟨decode_wordXYN_drw x y n, fun s => ⟨fun hin => ?_, fun a ha => ?_⟩⟩
  · obtain ⟨t, hnext, hframe, hdisp, hflag⟩ := execDrw_next x y n s hin
    have herased := s.erased_drawn x y n
    rw [← hdisp] at herased
    refine ⟨t, hnext, hframe, fun r c hr hc => hdisp ▸ s.pixel_drawn x y n hr hc, fun hoff => ?_, fun hkept => ?_⟩
    · rw [hflag, herased.mpr hoff]
      rfl
    · have hnone : (s.drawn x y n).2 = false := Bool.eq_false_iff.mpr fun h => by
        obtain ⟨r, c, hr, hc, hon, hoff⟩ := herased.mp h
        exact Bool.false_ne_true (hoff.symm.trans (hkept r c hr hc hon))
      rw [hflag, hnone]
      rfl
  · obtain ⟨hover, hpos, rfl⟩ := firstOutOfRange_iff.mp ha
    exact execDrw_fault x y n s hpos.ne' hover

end Sys2Proof.Machine
end

section
/-! Keypad and timers (spec/44_keypad_timers.md): decoding of group E, what a write to the latch or to a timer leaves
unchanged, and the proofs of the obligations about the keypad and timer instructions. -/

namespace Sys2Proof.Machine

/-! ### Decoding (R57) -/

/-- A word of group E decodes to what the group's table says of its function byte (R57). -/
theorem decode_wordXNN_groupE (x : RegIdx) (f : Byte) {i : Instr} (h : decodeGroupE (formXNN 0xE#4 x f) = .instr i) :
    decode (wordXNN 0xE x f.toNat) = .instr i := by
  simpa [wordXNN_eq, decode] using h

/-! ### Writing the latch (R130–R132) -/

/-- An instruction that ends with the latch and registers written changes, besides PC, only these. -/
theorem Frame.writeLatch {regs : List RegIdx} {s : State} {v : Vector Byte 16} (keys : Word) (a : Advance)
    (hregs : ∀ z, z ∉ regs → ({ s with v := v } : State).readV z = s.readV z) :
    Frame regs [.keys] (s.advance a).pc s ({ s with keys := keys, v := v }.advance a) := by
  refine Frame.of_advance hregs (fun p hp => ?_) (by cases a <;> rfl)
  cases p with
  | keys => exact absurd hp (by decide)
  | _ => simp [Part.Same]

/-- The number of a key fits in a byte (R132). -/
theorem lowestKey_byte_toNat (keys : Word) : (BitVec.ofNat 8 (lowestKey keys).val).toNat = (lowestKey keys).val :=
  toNat_ofNat_of_lt (by omega)

/-! ### Writing the timers (R133–R135) -/

theorem execLdDtVx_eq (x : RegIdx) (s : State) :
    exec (.ldDtVx x) s = .next ({ s with dt := s.readV x }.advance .next) := rfl

theorem execLdStVx_eq (x : RegIdx) (s : State) :
    exec (.ldStVx x) s = .next ({ s with st := s.readV x }.advance .next) := rfl

/-- An instruction that ends with the timers written changes, besides PC, only the one of the two whose value is new. -/
theorem Frame.writeTimers {parts : List Part} {s : State} {delay sound : Byte}
    (hdelay : .delay ∉ parts → delay = s.dt) (hsound : .sound ∉ parts → sound = s.st) :
    Frame [] parts (s.pc + 2) s ({ s with dt := delay, st := sound }.advance .next) := by
  refine Frame.of_advance (fun _ _ => rfl) (fun p hp => ?_) rfl
  cases p with
  | delay => exact hdelay hp
  | sound => exact hsound hp
  | _ => simp [Part.Same]

/-! ### The obligations -/

/-- Settles O36: a latched key is a skip that writes 0 to the latch, a key that is not is an advance and no more, and a
value that is no key faults. -/
theorem skpSkipsAndClearsTheLatch : Obligations.SkpSkipsAndClearsTheLatch := by
  refine fun x => ⟨decode_wordXNN_groupE x 0x9E#8 (by simp [decodeGroupE]), fun s =>
    ⟨fun hkey hlatched => ?_, fun hkey hclear => ?_, execSkp_fault x s⟩⟩
  · exact ⟨_, execSkp_pressed x s hkey hlatched, rfl, Frame.writeLatch 0 .skip fun _ _ => rfl⟩
  · exact ⟨_, execSkp_notPressed x s hkey hclear, Frame.advance_self s .next⟩

/-- Settles O37: on each side of the test SKNP_CLEAR chooses between 0 and the old latch, and a value that is no key
faults. -/
theorem sknpSkipsAndClearsAsConfigured : Obligations.SknpSkipsAndClearsAsConfigured := by
  refine fun x => ⟨decode_wordXNN_groupE x 0xA1#8 (by simp [decodeGroupE]), fun s =>
    ⟨fun hkey hclear => ?_, fun hkey hlatched => ?_, execSknp_fault x s⟩⟩
  · exact ⟨_, execSknp_notPressed x s hkey hclear, Frame.writeLatch _ .skip fun _ _ => rfl,
      fun honSkip => if_pos honSkip, fun hother => if_neg hother⟩
  · exact ⟨_, execSknp_pressed x s hkey hlatched, Frame.writeLatch _ .next fun _ _ => rfl,
      fun honPressed => if_pos honPressed, fun hother => if_neg hother⟩

/-- Settles O38: with an empty latch the state stays, and else the key taken is the lowest one latched. -/
theorem waitForKeyTakesTheLowest : Obligations.WaitForKeyTakesTheLowest := by
  refine fun x => ⟨decode_wordXNN_groupF x 0x0A#8 (by simp [decodeGroupF]), fun s =>
    ⟨execLdVxK_wait x s, fun hlatched => ?_⟩⟩
  obtain ⟨hset, hlower⟩ := lowestKey_spec hlatched
  refine ⟨_, (lowestKey s.keys).val, execLdVxK_key x s hlatched, (lowestKey s.keys).isLt, hset, hlower, ?_, rfl,
    Frame.writeLatch 0 .next fun z hz => ?_⟩
  · rw [State.readV_advance, State.readV_writeV_same, lowestKey_byte_toNat]
  · exact State.readV_writeV_ne s x z _ (by simpa using hz)

/-- Settles O39: FX07 ends with one register written, FX15 and FX18 with one timer. -/
theorem timerMovesCopy : Obligations.TimerMovesCopy := by
  refine fun x => ⟨decode_wordXNN_groupF x 0x07#8 (by simp [decodeGroupF]),
    decode_wordXNN_groupF x 0x15#8 (by simp [decodeGroupF]), decode_wordXNN_groupF x 0x18#8 (by simp [decodeGroupF]),
    fun s => ⟨complete_writeV s x s.dt, ?_, ?_⟩⟩
  · exact ⟨_, execLdDtVx_eq x s, rfl, Frame.writeTimers (by simp) fun _ => rfl⟩
  · exact ⟨_, execLdStVx_eq x s, rfl, Frame.writeTimers (fun _ => rfl) (by simp)⟩

end Sys2Proof.Machine
end

section
/-! Transactions of the host (spec/60_exceptions.md, R149–R152): what a transaction does on a running block, the state that a
sequence of ticks or of key presses leaves, and the proofs of the obligations about them. -/

namespace Sys2Proof.Machine

/-! ### One transaction on a running block -/

theorem transact_tickTimers {s : State} (h : s.run = .running) :
    transact .tickTimers s = ({ s with dt := tickDown s.dt, st := tickDown s.st }, .done) := by
  simp [transact, tickBlock, h]

theorem transact_pressKey {s : State} {k : Nat} (h : s.run = .running) (hk : k < 16) :
    transact (.pressKey k) s = ({ s with keys := setKey s.keys k }, .done) := by
  simp [transact, pressBlock, h, hk]

theorem transact_pressKey_refused {s : State} {k : Nat} (h : s.run = .running) (hk : 16 ≤ k) :
    transact (.pressKey k) s = (s, .refused (.keyOutOfRange k)) := by
  simp [transact, pressBlock, h, hk]

theorem transact_readDisplay {s : State} (h : s.run = .running) : transact .readDisplay s = (s, .display s.disp) := by
  simp [transact, readDisplayBlock, h]

theorem transact_readTimers {s : State} (h : s.run = .running) : transact .readTimers s = (s, .timers s.dt s.st) := by
  simp [transact, readTimersBlock, h]

/-- A state with the latch and the timers written differs only in those of the three whose value is new. -/
theorem Frame.hostWrite {parts : List Part} {s : State} {keys : Word} {delay sound : Byte}
    (hkeys : .keys ∉ parts → keys = s.keys) (hdelay : .delay ∉ parts → delay = s.dt)
    (hsound : .sound ∉ parts → sound = s.st) :
    Frame [] parts s.pc s { s with keys := keys, dt := delay, st := sound } := by
  refine ⟨fun _ _ => rfl, fun p hp => ?_, rfl⟩
  cases p with
  | keys => exact hkeys hp
  | delay => exact hdelay hp
  | sound => exact hsound hp
  | _ => simp [Part.Same]

/-! ### A sequence of ticks (R149) -/

/-- A tick is the subtraction of one on natural numbers: at 0 it stays. -/
theorem tickDown_toNat (b : Byte) : (tickDown b).toNat = b.toNat - 1 := by
  unfold tickDown
  split <;> bv_omega

theorem tickDown_iterate_toNat (n : Nat) (b : Byte) : (tickDown^[n] b).toNat = b.toNat - n := by
  induction n generalizing b with
  | zero => rfl
  | succ n ih => rw [Function.iterate_succ_apply, ih, tickDown_toNat, Nat.sub_sub, Nat.add_comm]

theorem transactAll_ticks (n : Nat) {s : State} (h : s.run = .running) :
    transactAll (List.replicate n .tickTimers) s = { s with dt := tickDown^[n] s.dt, st := tickDown^[n] s.st } := by
  induction n generalizing s with
  | zero => rfl
  | succ n ih =>
    rw [List.replicate_succ, transactAll, transact_tickTimers h]
    exact ih h

/-! ### A sequence of key presses (R150) -/

theorem setKey_getLsbD {k : Nat} (hk : k < 16) (keys : Word) (j : Nat) :
    (setKey keys k).getLsbD j = (keys.getLsbD j || decide (j = k)) := by
  have hbit : (1#16 <<< k).getLsbD j = decide (j = k) := by
    rw [← BitVec.twoPow_eq, BitVec.getLsbD_twoPow]
    simp [hk, eq_comm]
  rw [setKey, BitVec.getLsbD_or, hbit]

/-- Every key of the list sets its bit, wherever and however often it stands in the list. -/
theorem foldl_setKey_getLsbD {ks : List Nat} (hks : ∀ k ∈ ks, k < 16) (keys : Word) (j : Nat) :
    (ks.foldl setKey keys).getLsbD j = (keys.getLsbD j || decide (j ∈ ks)) := by
  induction ks generalizing keys with
  | nil => simp
  | cons k ks ih =>
    obtain ⟨hk, hks⟩ := List.forall_mem_cons.mp hks
    rw [List.foldl_cons, ih hks, setKey_getLsbD hk, Bool.or_assoc, ← Bool.decide_or]
    simp only [List.mem_cons]

theorem transactAll_presses {ks : List Nat} (hks : ∀ k ∈ ks, k < 16) {s : State} (h : s.run = .running) :
    transactAll (ks.map .pressKey) s = { s with keys := ks.foldl setKey s.keys } := by
  induction ks generalizing s with
  | nil => rfl
  | cons k ks ih =>
    obtain ⟨hk, hks⟩ := List.forall_mem_cons.mp hks
    rw [List.map_cons, transactAll, transact_pressKey h hk]
    exact ih hks h

/-! ### The obligations -/

/-- Settles O49: n ticks iterate the tick of each timer n times, and each iteration subtracts one down to 0. -/
theorem ticksCountDownToZero : Obligations.TicksCountDownToZero := fun n s h =>
  ⟨_, transactAll_ticks n h, tickDown_iterate_toNat n s.dt, tickDown_iterate_toNat n s.st,
    Frame.hostWrite (fun _ => rfl) (by simp) (by simp)⟩

/-- Settles O50: the presses fold the setting of one bit over the list, and a key of 16 or more is refused. -/
theorem pressedKeysAreLatched : Obligations.PressedKeysAreLatched :=
  ⟨fun _ s h hks => ⟨_, transactAll_presses hks h, Frame.hostWrite (by simp) (fun _ => rfl) (fun _ => rfl),
    foldl_setKey_getLsbD hks s.keys⟩, fun _ _ => transact_pressKey_refused⟩

/-- Settles O51: the answers are the fields themselves, the display with all its pixels. -/
theorem readsAnswerAndChangeNothing : Obligations.ReadsAnswerAndChangeNothing := fun s h =>
  ⟨transact_readTimers h, s.disp, transact_readDisplay h, fun _ _ => rfl⟩

end Sys2Proof.Machine
end

section
/-! Reset (spec/70_reset_and_hazards.md, R160, R161): what `initialize` answers, the bytes it leaves region by region, and the
proof of the obligation about it. -/

namespace Sys2Proof.Machine

/-! ### The transaction (R160, R161) -/

theorem transact_init {p : List Byte} (hp : p.length ≤ 3584) (s : State) :
    transact (.init p) s = ({ State.initial s.config p with draws := s.draws }, .ok) :=
  if_neg (Nat.not_lt.mpr hp)

theorem transact_init_tooLarge {p : List Byte} (hp : 3584 < p.length) (s : State) :
    transact (.init p) s = (s, .fault .programTooLarge) :=
  if_pos hp

/-! ### The three regions of the image (R37, R160) -/

section
variable {font program : List Byte} (hf : font.length = 80) (hp : program.length ≤ 3584)
include hf hp

theorem Memory.read_image_font {a : Nat} (ha : a < 80) : (Memory.image font program).read a = font.getD a 0 := by
  rw [Memory.read_image hf hp, if_pos ha]
  rfl

theorem Memory.read_image_program {k : Nat} (hk : k < program.length) :
    (Memory.image font program).read (0x200 + k) = program.getD k 0 := by
  rw [Memory.read_image hf hp, if_neg (by omega), if_pos (by omega), Nat.add_sub_cancel_left]
  rfl

theorem Memory.read_image_rest {a : Nat} (ha : 80 ≤ a) (hout : a < 0x200 ∨ 0x200 + program.length ≤ a) :
    (Memory.image font program).read a = 0 := by
  rw [Memory.read_image hf hp, if_neg (by omega), if_neg (by omega)]
  rfl

end

/-! ### The stack -/

theorem State.slot_initial (c : Config) (p : List Byte) {k : Nat} (h1 : 1 ≤ k) (h2 : k ≤ 16) :
    (State.initial c p).slot k = some 0 := by
  rw [State.slot_eq _ k h1 h2, State.stack_initial c p (k - 1) (by omega)]

/-! ### The obligation -/

/-- Settles O48: a program that fits leaves the image of font and program and the initial value of every other field, whatever
the state before was; a longer one leaves the state as it is. -/
theorem initializeResetsEverythingOrRefuses : Obligations.InitializeResetsEverythingOrRefuses := by
  refine fun s p => ⟨fun hp => ?_, fun hp => transact_init_tooLarge hp s⟩
  have hf : s.config.font.toList.length = 80 := Vector.length_toList
  refine ⟨_, transact_init hp s, ?font, ?program, ?zeros, ?registers, rfl, rfl, ?slots, ?pixels, rfl, rfl, rfl, rfl, rfl⟩
  case font => exact fun _ => Memory.read_image_font hf hp
  case program => exact fun _ => Memory.read_image_program hf hp
  case zeros => exact fun _ hlo _ hout => Memory.read_image_rest hf hp hlo hout
  case registers => exact State.readV_initial s.config p
  case slots => exact fun _ => State.slot_initial s.config p
  case pixels => exact Display.pixel_blank

end Sys2Proof.Machine
end

section
/-! Encoding (spec/30_encoding.md): an opcode is made of its fields, each group of the decoder reads only encodings, the
invalid opcodes, and the proofs of the obligations about decoding. -/

namespace Sys2Proof.Machine

/-! ### An opcode is made of its fields (R50, R51) -/

theorem formNNN_fields {op : Word} {top : BitVec 4} (hT : fieldT op = top) : formNNN top (fieldNNN op) = op := by
  subst hT
  apply BitVec.eq_of_toNat_eq
  rw [formNNN_toNat, fieldT_toNat, fieldNNN_toNat]
  omega

theorem formXNN_fields {op : Word} {top : BitVec 4} (hT : fieldT op = top) :
    formXNN top (fieldX op) (fieldNN op) = op := by
  subst hT
  apply BitVec.eq_of_toNat_eq
  rw [formXNN_toNat, fieldT_toNat, fieldX_val, fieldNN_toNat]
  omega

theorem formX_fields {op : Word} {top : BitVec 4} {f : Byte} (hT : fieldT op = top) (hf : fieldNN op = f) :
    formX top (fieldX op) f = op := by
  rw [formX, ← hf, formXNN_fields hT]

theorem formXYN_fields {op : Word} {top : BitVec 4} {n : Nibble} (hT : fieldT op = top) (hN : fieldN op = n) :
    formXYN top (fieldX op) (fieldY op) n = op := by
  subst hT hN
  apply BitVec.eq_of_toNat_eq
  rw [formXYN_toNat, fieldT_toNat, fieldX_val, fieldY_val, fieldN_toNat]
  omega

/-- The one top nibble that the decoder does not name (R53). -/
theorem fieldT_eq_F {op : Word} (h0 : fieldT op ≠ 0x0#4) (h1 : fieldT op ≠ 0x1#4) (h2 : fieldT op ≠ 0x2#4)
    (h3 : fieldT op ≠ 0x3#4) (h4 : fieldT op ≠ 0x4#4) (h5 : fieldT op ≠ 0x5#4) (h6 : fieldT op ≠ 0x6#4)
    (h7 : fieldT op ≠ 0x7#4) (h8 : fieldT op ≠ 0x8#4) (h9 : fieldT op ≠ 0x9#4) (hA : fieldT op ≠ 0xA#4)
    (hB : fieldT op ≠ 0xB#4) (hC : fieldT op ≠ 0xC#4) (hD : fieldT op ≠ 0xD#4) (hE : fieldT op ≠ 0xE#4) :
    fieldT op = 0xF#4 := by
  bv_omega

/-! ### The space of SYS (R54) -/

/-- A SYS is well formed exactly when the low byte of its NNN is none of 0x00, 0xE0, 0xEE. -/
theorem wellFormed_sys_iff (n : Addr12) : WellFormed (.sys n) ↔
    n.toNat % 0x100 ≠ 0x00 ∧ n.toNat % 0x100 ≠ 0xE0 ∧ n.toNat % 0x100 ≠ 0xEE := by
  have hlow : (sysLowByte n).toNat = n.toNat % 0x100 := by simp [sysLowByte]
  rw [← hlow]
  simp [WellFormed, Instr.wf, sysLowByteNonzero, sysLowByteNotClear, sysLowByteNotReturn, ← BitVec.toNat_inj, and_assoc]

/-! ### Each group of the decoder reads only encodings (R54–R58) -/

section
variable {op : Word} {i : Instr}

theorem encode_of_decodeGroup0 (hT : fieldT op = 0x0#4) (h : decodeGroup0 op = .instr i) : WellFormed i ∧ encode i = op := by
  unfold decodeGroup0 at h
  split at h
  · cases h; exact ⟨rfl, by simp [encode, *]⟩
  split at h
  · cases h; exact ⟨rfl, by simp [encode, *]⟩
  split at h
  · cases h
  split at h
  · cases h
  · next hzero hother =>
    cases h
    refine ⟨(wellFormed_sys_iff _).mpr ?_, formNNN_fields hT⟩
    simp only [← BitVec.toNat_inj, fieldNN_toNat, BitVec.reduceToNat] at hzero hother
    rw [fieldNNN_toNat]
    omega

theorem encode_of_decodeGroup5 (hT : fieldT op = 0x5#4) (h : decodeGroup5 op = .instr i) : WellFormed i ∧ encode i = op := by
  unfold decodeGroup5 at h
  split at h
  · cases h; exact ⟨rfl, formXYN_fields hT ‹_›⟩
  · cases h

theorem encode_of_decodeGroup9 (hT : fieldT op = 0x9#4) (h : decodeGroup9 op = .instr i) : WellFormed i ∧ encode i = op := by
  unfold decodeGroup9 at h
  split at h
  · cases h; exact ⟨rfl, formXYN_fields hT ‹_›⟩
  · cases h

theorem encode_of_decodeGroup8 (hT : fieldT op = 0x8#4) (h : decodeGroup8 op = .instr i) : WellFormed i ∧ encode i = op := by
  unfold decodeGroup8 at h
  split at h <;> cases h <;> exact ⟨rfl, formXYN_fields hT ‹_›⟩

theorem encode_of_decodeGroupE (hT : fieldT op = 0xE#4) (h : decodeGroupE op = .instr i) : WellFormed i ∧ encode i = op := by
  unfold decodeGroupE at h
  split at h <;> cases h <;> exact ⟨rfl, formX_fields hT ‹_›⟩

theorem encode_of_decodeGroupF (hT : fieldT op = 0xF#4) (h : decodeGroupF op = .instr i) : WellFormed i ∧ encode i = op := by
  unfold decodeGroupF at h
  split at h <;> cases h <;> exact ⟨rfl, formX_fields hT ‹_›⟩

end

/-! ### The obligations about the round trip -/

/-- Settles O1: the fields of a word of each format are its operands, and the group of its top nibble reads them; the checks
of group 0 are those of a well-formed SYS. -/
theorem decodeOfEncode : Obligations.DecodeOfEncode := by
  intro i hwf
  cases i with
  | sys n =>
    obtain ⟨hzero, hcls, hret⟩ := (wellFormed_sys_iff n).mp hwf
    simp only [encode, decode, fieldT_formNNN, decodeGroup0, fieldNNN_formNNN, ← BitVec.toNat_inj, fieldNN_toNat,
      formNNN_toNat]
    rw [if_neg, if_neg, if_neg, if_neg] <;> simp <;> omega
  | cls | ret => rfl
  | seReg x y | sneReg x y => simp [encode, decode, decodeGroup5, decodeGroup9]
  | ldReg x y | orReg x y | andReg x y | xorReg x y | addReg x y | sub x y | shr x y | subn x y | shl x y =>
    simp [encode, decode, decodeGroup8]
  | skp x | sknp x => simp [encode, decode, decodeGroupE]
  | ldVxDt x | ldVxK x | ldDtVx x | ldStVx x | addI x | ldF x | ldB x | ldStore x | ldLoad x =>
    simp [encode, decode, decodeGroupF]
  | _ => simp [encode, decode]

/-- Settles O2: each arm of the decoder reads the fields of the opcode, and the opcode is made of its fields. -/
theorem encodeOfDecode : Obligations.EncodeOfDecode := by
  intro op i h
  unfold decode at h
  split at h
  case h_1 hT => exact encode_of_decodeGroup0 hT h
  case h_6 hT => exact encode_of_decodeGroup5 hT h
  case h_9 hT => exact encode_of_decodeGroup8 hT h
  case h_10 hT => exact encode_of_decodeGroup9 hT h
  case h_14 hT => cases h; exact ⟨rfl, formXYN_fields hT rfl⟩
  case h_15 hT => exact encode_of_decodeGroupE hT h
  case h_16 => exact encode_of_decodeGroupF (by apply fieldT_eq_F <;> assumption) h
  case h_2 hT | h_3 hT | h_11 hT | h_12 hT => cases h; exact ⟨rfl, formNNN_fields hT⟩
  case h_4 hT | h_5 hT | h_7 hT | h_8 hT | h_13 hT => cases h; exact ⟨rfl, formXNN_fields hT⟩

/-! ### The invalid opcodes (R59) -/

section
variable {op : Word} {r : Reject}

theorem reject_of_decodeGroup0 (h : decodeGroup0 op = .rejected r) : r = .invalidOpcode op ∧
    (op.toNat % 0x100 = 0x00 ∨ (op.toNat % 0x100 = 0xE0 ∨ op.toNat % 0x100 = 0xEE) ∧ op.toNat ≠ 0xE0 ∧ op.toNat ≠ 0xEE) := by
  unfold decodeGroup0 at h
  simp only [← BitVec.toNat_inj, fieldNN_toNat] at h
  split at h
  · cases h
  split at h
  · cases h
  split at h
  · next hzero => cases h; exact ⟨rfl, .inl hzero⟩
  split at h
  · next hcls hret _ hother => cases h; exact ⟨rfl, .inr ⟨hother, hcls, hret⟩⟩
  · cases h

theorem reject_of_decodeGroup5 (h : decodeGroup5 op = .rejected r) : r = .invalidOpcode op ∧ op.toNat % 0x10 ≠ 0 := by
  unfold decodeGroup5 at h
  split at h
  · cases h
  · next hN => cases h; exact ⟨rfl, fun h0 => hN (BitVec.eq_of_toNat_eq ((fieldN_toNat op).trans h0))⟩

theorem reject_of_decodeGroup9 (h : decodeGroup9 op = .rejected r) : r = .invalidOpcode op ∧ op.toNat % 0x10 ≠ 0 := by
  unfold decodeGroup9 at h
  split at h
  · cases h
  · next hN => cases h; exact ⟨rfl, fun h0 => hN (BitVec.eq_of_toNat_eq ((fieldN_toNat op).trans h0))⟩

theorem reject_of_decodeGroup8 (h : decodeGroup8 op = .rejected r) : r = .invalidOpcode op ∧
    op.toNat % 0x10 ∈ [0x8, 0x9, 0xA, 0xB, 0xC, 0xD, 0xF] := by
  unfold decodeGroup8 at h
  split at h <;> cases h
  refine ⟨rfl, ?_⟩
  simp only [← BitVec.toNat_inj, fieldN_toNat, BitVec.reduceToNat, imp_false, List.mem_cons, List.not_mem_nil,
    or_false] at *
  omega

theorem reject_of_decodeGroupE (h : decodeGroupE op = .rejected r) : r = .invalidOpcode op ∧
    op.toNat % 0x100 ∉ [0x9E, 0xA1] := by
  unfold decodeGroupE at h
  split at h <;> cases h
  refine ⟨rfl, ?_⟩
  simp only [← BitVec.toNat_inj, fieldNN_toNat, BitVec.reduceToNat, imp_false, List.mem_cons, List.not_mem_nil,
    or_false] at *
  omega

theorem reject_of_decodeGroupF (h : decodeGroupF op = .rejected r) : r = .invalidOpcode op ∧
    op.toNat % 0x100 ∉ [0x07, 0x0A, 0x15, 0x18, 0x1E, 0x29, 0x33, 0x55, 0x65] := by
  unfold decodeGroupF at h
  split at h <;> cases h
  refine ⟨rfl, ?_⟩
  simp only [← BitVec.toNat_inj, fieldNN_toNat, BitVec.reduceToNat, imp_false, List.mem_cons, List.not_mem_nil,
    or_false] at *
  omega
end

/-- The decoder rejects only opcodes that the table of R59 lists, each by its own number. -/
theorem listedInvalid_of_rejected {op : Word} {r : Reject} (h : decode op = .rejected r) :
    r = .invalidOpcode op ∧ ListedInvalid op.toNat := by
  have htop : ∀ {t : BitVec 4}, fieldT op = t → op.toNat / 0x1000 = t.toNat := fun hT => hT ▸ (fieldT_toNat op).symm
  unfold decode at h
  split at h
  case h_1 hT =>
    have h0 : op.toNat / 0x1000 = 0x0 := htop hT
    obtain ⟨hr, hzero | ⟨hlow, hcls, hret⟩⟩ := reject_of_decodeGroup0 h
    · exact ⟨hr, .inl ⟨h0, hzero⟩⟩
    · exact ⟨hr, .inr (.inl ⟨h0, hlow, by omega⟩)⟩
  case h_6 hT =>
    obtain ⟨hr, hN⟩ := reject_of_decodeGroup5 h
    exact ⟨hr, .inr (.inr (.inl ⟨htop hT, hN⟩))⟩
  case h_9 hT =>
    obtain ⟨hr, hN⟩ := reject_of_decodeGroup8 h
    exact ⟨hr, .inr (.inr (.inr (.inl ⟨htop hT, hN⟩)))⟩
  case h_10 hT =>
    obtain ⟨hr, hN⟩ := reject_of_decodeGroup9 h
    exact ⟨hr, .inr (.inr (.inr (.inr (.inl ⟨htop hT, hN⟩))))⟩
  case h_15 hT =>
    obtain ⟨hr, hNN⟩ := reject_of_decodeGroupE h
    exact ⟨hr, .inr (.inr (.inr (.inr (.inr (.inl ⟨htop hT, hNN⟩)))))⟩
  case h_16 =>
    have hT : fieldT op = 0xF#4 := by apply fieldT_eq_F <;> assumption
    obtain ⟨hr, hNN⟩ := reject_of_decodeGroupF h
    exact ⟨hr, .inr (.inr (.inr (.inr (.inr (.inr ⟨htop hT, hNN⟩)))))⟩
  all_goals cases h

/-- The encoding of a well-formed instruction is not in the table of R59. -/
theorem not_listedInvalid_encode {i : Instr} (hwf : WellFormed i) : ¬ ListedInvalid (encode i).toNat := by
  cases i with
  | sys n =>
    obtain ⟨hzero, hcls, hret⟩ := (wellFormed_sys_iff n).mp hwf
    simp [encode, formNNN_toNat]
    omega
  | cls | ret => decide
  | jp n | call n | ldI n | jpV0 n =>
    simp [encode, formNNN_toNat]
    omega
  | seImm x nn | sneImm x nn | ldImm x nn | addImm x nn | rnd x nn =>
    simp [encode, formXNN_toNat]
    omega
  | skp x | sknp x | ldVxDt x | ldVxK x | ldDtVx x | ldStVx x | addI x | ldF x | ldB x | ldStore x | ldLoad x =>
    simp [encode, formX, formXNN_toNat]
    omega
  | _ =>
    simp [encode, formXYN_toNat]
    omega

theorem decode_of_listedInvalid {op : Word} (h : ListedInvalid op.toNat) : decode op = .rejected (.invalidOpcode op) := by
  cases hd : decode op with
  | rejected r => rw [(listedInvalid_of_rejected hd).1]
  | instr i =>
    obtain ⟨hwf, rfl⟩ := encodeOfDecode op i hd
    exact absurd h (not_listedInvalid_encode hwf)

/-! ### The obligations about invalid opcodes and SYS -/

/-- Settles O3: what the decoder rejects is listed, and what it accepts is the encoding of a well-formed instruction, which is
not. -/
theorem invalidOpcodesAreTheListedOnes : Obligations.InvalidOpcodesAreTheListedOnes := by
  refine ⟨fun op => ⟨fun h => (listedInvalid_of_rejected h).2, decode_of_listedInvalid⟩, fun s op hrun hpc hop hlisted => ?_⟩
  have hword : op = BitVec.ofNat 16 s.opcodeAtPc := by rw [← hop, BitVec.ofNat_toNat, BitVec.setWidth_eq]
  have hdecode := decode_of_listedInvalid hlisted
  rw [hword] at hdecode ⊢
  exact step_of_rejected hrun hpc hdecode

/-- Settles O4: the decoder evaluates on each word. -/
theorem sampleWordsDecode : Obligations.SampleWordsDecode := ⟨rfl, rfl, rfl, rfl, rfl, rfl, rfl, rfl⟩

/-- Settles O9: the word of a well-formed SYS decodes to it, the words taken out of its space are in the table of R59, and the
instruction is an advance and no more. -/
theorem sysIsANoOp : Obligations.SysIsANoOp := by
  intro n
  have hword : (wordNNN 0x0 n).toNat = n.toNat := by
    have := n.isLt
    rw [wordNNN_eq, formNNN_toNat, BitVec.toNat_ofNat]
    omega
  refine ⟨fun hlow => ?_, fun hlow => decode_of_listedInvalid ?_, fun s => ⟨_, rfl, Frame.advance_self s .next⟩⟩
  · rw [wordNNN_eq]
    exact decodeOfEncode (.sys n) ((wellFormed_sys_iff n).mpr (by simpa using hlow))
  · have htop : n.toNat / 0x1000 = 0x0 := Nat.div_eq_of_lt n.isLt
    rw [hword]
    obtain hzero | ⟨hmem, hhigh⟩ := hlow
    · exact .inl ⟨htop, hzero⟩
    · exact .inr (.inl ⟨htop, by simpa using hmem, by omega⟩)

end Sys2Proof.Machine
end

section
/-! The effect of an instruction (spec/10_state.md sections 1 and 2): the fault an instruction raises, and what each field of
the state holds after an instruction that raises none. Every statement about all instructions is read off this normal form of
`exec`. -/

namespace Sys2Proof.Machine

/-! ### The fault of an instruction (R140, R141) -/

/-- The fault that an instruction raises by the stack or by its operands. -/
def operandFault (i : Instr) (s : State) : Option Fault :=
  match i with
  | .call _ => if s.sp.val = 16 then some .stackOverflow else none
  | .ret => if s.sp.val = 0 then some .stackUnderflow else none
  | .addI x =>
    if 0xFFFF < s.i.toNat + (s.readV x).toNat then some (.indexOverflow (s.i.toNat + (s.readV x).toNat)) else none
  | .ldF x => if 16 ≤ (s.readV x).toNat then some (.fontDigitOutOfRange (s.readV x)) else none
  | .skp x => if 16 ≤ (s.readV x).toNat then some (.keyIndexOutOfRange (s.readV x)) else none
  | .sknp x => if 16 ≤ (s.readV x).toNat then some (.keyIndexOutOfRange (s.readV x)) else none
  | _ => none

/-- The fault that an instruction raises, if it raises one: that of its access to memory, or else of its operands. -/
def faultOf (i : Instr) (s : State) : Option Fault :=
  if 0 < accessLength i ∧ 4096 < s.i.toNat + accessLength i then some (.memoryOutOfRange (max s.i.toNat 4096))
  else operandFault i s

/-! ### The fields after an instruction that raises no fault -/

/-- The general registers after an instruction (R12). -/
def nextV (i : Instr) (s : State) : Vector Byte 16 :=
  match i with
  | .ldImm x nn => (s.writeV x nn).v
  | .addImm x nn => (s.writeV x (s.readV x + nn)).v
  | .ldReg x y => (s.writeV x (s.readV y)).v
  | .orReg x y => (s.writeResultFlag x (s.readV x ||| s.readV y) 0).v
  | .andReg x y => (s.writeResultFlag x (s.readV x &&& s.readV y) 0).v
  | .xorReg x y => (s.writeResultFlag x (s.readV x ^^^ s.readV y) 0).v
  | .addReg x y => (s.writeResultFlag x (s.readV x + s.readV y) (addCarry (s.readV x) (s.readV y))).v
  | .sub x y => (s.writeResultFlag x (s.readV x - s.readV y) (noBorrow (s.readV x) (s.readV y))).v
  | .shr x y => (s.writeResultFlag x (s.readV y >>> 1) (shiftedOutLow (s.readV y))).v
  | .subn x y => (s.writeResultFlag x (s.readV y - s.readV x) (noBorrow (s.readV y) (s.readV x))).v
  | .shl x y => (s.writeResultFlag x (s.readV y <<< 1) (shiftedOutHigh (s.readV y))).v
  | .rnd x nn => (s.writeV x (Config.randomDraw s.draws &&& nn)).v
  | .drw x y n => (s.writeV 15 (flagByte (s.drawn x y n).2)).v
  | .ldVxDt x => (s.writeV x s.dt).v
  | .ldVxK x => if s.keys = 0 then s.v else (s.writeV x (BitVec.ofNat 8 (lowestKey s.keys).val)).v
  | .ldLoad x => Vector.ofFn fun z => if z ≤ x then s.mem.read (s.i.toNat + z.val) else s.readV z
  | _ => s.v

/-- I after an instruction (R13). -/
def nextI (i : Instr) (s : State) : Word :=
  match i with
  | .ldI n => zextAddr n
  | .addI x => BitVec.ofNat 16 (s.i.toNat + (s.readV x).toNat)
  | .ldF x => BitVec.ofNat 16 (5 * (s.readV x).toNat)
  | .ldStore x => BitVec.ofNat 16 (s.i.toNat + (x.val + 1))
  | .ldLoad x => BitVec.ofNat 16 (s.i.toNat + (x.val + 1))
  | _ => s.i

/-- PC after an instruction (R14, R74). -/
def nextPc (i : Instr) (s : State) : Word :=
  match i with
  | .ret => s.stack[s.sp.val - 1]'(by omega)
  | .jp n => zextAddr n
  | .call n => zextAddr n
  | .jpV0 n => zextAddr n + zextByte (s.readV 0)
  | .seImm x nn => if s.readV x == nn then s.pc + 4 else s.pc + 2
  | .sneImm x nn => if s.readV x != nn then s.pc + 4 else s.pc + 2
  | .seReg x y => if s.readV x == s.readV y then s.pc + 4 else s.pc + 2
  | .sneReg x y => if s.readV x != s.readV y then s.pc + 4 else s.pc + 2
  | .skp x => if s.keys.getLsbD (s.readV x).toNat then s.pc + 4 else s.pc + 2
  | .sknp x => if s.keys.getLsbD (s.readV x).toNat then s.pc + 2 else s.pc + 4
  | .ldVxK _ => if s.keys = 0 then s.pc else s.pc + 2
  | _ => s.pc + 2

/-- The stack after an instruction (R15). -/
def nextStack (i : Instr) (s : State) : Vector Word 16 :=
  match i with
  | .call _ => s.stack.setIfInBounds s.sp.val s.pc
  | _ => s.stack

/-- SP after an instruction (R16). -/
def nextSp (i : Instr) (s : State) : Fin 17 :=
  match i with
  | .call _ => ⟨min (s.sp.val + 1) 16, by omega⟩
  | .ret => ⟨s.sp.val - 1, by omega⟩
  | _ => s.sp

/-- KEYS after an instruction (R17). -/
def nextKeys (i : Instr) (s : State) : Word :=
  match i with
  | .skp x => if s.keys.getLsbD (s.readV x).toNat then 0 else s.keys
  | .sknp x =>
    if s.config.sknpClear = (if s.keys.getLsbD (s.readV x).toNat then .onPressed else .onSkip) then 0 else s.keys
  | .ldVxK _ => 0
  | _ => s.keys

/-- DT after an instruction (R18). -/
def nextDt (i : Instr) (s : State) : Byte :=
  match i with
  | .ldDtVx x => s.readV x
  | _ => s.dt

/-- ST after an instruction (R19). -/
def nextSt (i : Instr) (s : State) : Byte :=
  match i with
  | .ldStVx x => s.readV x
  | _ => s.st

/-- DISP after an instruction (R20). -/
def nextDisp (i : Instr) (s : State) : Display :=
  match i with
  | .cls => Display.blank
  | .drw x y n => (s.drawn x y n).1
  | _ => s.disp

/-- MEM after an instruction (R35). -/
def nextMem (i : Instr) (s : State) : Memory :=
  match i with
  | .ldB x => s.mem.writeAll s.i.toNat (bcdDigits (s.readV x))
  | .ldStore x => s.mem.writeAll s.i.toNat (s.regBlock x)
  | _ => s.mem

/-- The draw counter after an instruction (log 5). -/
def nextDraws (i : Instr) (s : State) : Nat :=
  match i with
  | .rnd _ _ => s.draws + 1
  | _ => s.draws

/-- The state that an instruction leaves when it raises no fault. No instruction writes RUN or the parameters. -/
def effect (i : Instr) (s : State) : State :=
  { v := nextV i s, i := nextI i s, pc := nextPc i s, stack := nextStack i s, sp := nextSp i s, keys := nextKeys i s,
    dt := nextDt i s, st := nextSt i s, disp := nextDisp i s, mem := nextMem i s, run := s.run, config := s.config,
    draws := nextDraws i s }

/-! ### The normal form of `exec` -/

theorem exec_of_operandFault_eq_some {i : Instr} {s : State} {e : Fault} (h : operandFault i s = some e) :
    exec i s = .fault e := by
  cases i with
  | call n =>
    obtain ⟨hfull, ⟨⟩⟩ := Option.ite_none_right_eq_some.mp h
    exact execCall_full n s hfull
  | ret =>
    obtain ⟨hempty, ⟨⟩⟩ := Option.ite_none_right_eq_some.mp h
    exact execRet_empty s hempty
  | addI x =>
    obtain ⟨hover, ⟨⟩⟩ := Option.ite_none_right_eq_some.mp h
    exact execAddI_overflow x s hover
  | ldF x =>
    obtain ⟨hdigit, ⟨⟩⟩ := Option.ite_none_right_eq_some.mp h
    exact execLdF_fault x s hdigit
  | skp x =>
    obtain ⟨hkey, ⟨⟩⟩ := Option.ite_none_right_eq_some.mp h
    exact execSkp_fault x s hkey
  | sknp x =>
    obtain ⟨hkey, ⟨⟩⟩ := Option.ite_none_right_eq_some.mp h
    exact execSknp_fault x s hkey
  | _ => cases h

theorem exec_of_faultOf_eq_some {i : Instr} {s : State} {e : Fault} (h : faultOf i s = some e) : exec i s = .fault e := by
  unfold faultOf at h
  split at h
  case isFalse => exact exec_of_operandFault_eq_some h
  case isTrue hout =>
    obtain ⟨hpos, hover⟩ := hout
    cases h
    cases i with
    | ldB x => exact execLdB_fault x s hover
    | ldStore x => exact execLdStore_fault x s (Nat.le_of_lt_succ hover)
    | ldLoad x => exact execLdLoad_fault x s (Nat.le_of_lt_succ hover)
    | drw x y n => exact execDrw_fault x y n s hpos.ne' hover
    | _ => exact absurd hpos (lt_irrefl 0)

/-- An instruction that raises no fault finds the memory it accesses, and its operands in range. -/
theorem faultOf_eq_none_iff {i : Instr} {s : State} : faultOf i s = none ↔
    (0 < accessLength i → s.i.toNat + accessLength i ≤ 4096) ∧ operandFault i s = none := by
  unfold faultOf
  split <;> simp <;> omega

/-- A conditional skip writes PC and nothing else. -/
theorem skipIf_eq_next (c : Bool) (s : State) :
    skipIf c s = .next { s with pc := if c then s.pc + 4 else s.pc + 2 } := by
  cases c <;> rfl

/-- A block of bytes loaded into V0 to Vx, as one write of all the general registers. -/
theorem State.writeBlock_load (s : State) (x : RegIdx) :
    s.writeBlock 0 ((List.range' s.i.toNat (x.val + 1)).map s.mem.read) = { s with v := nextV (.ldLoad x) s } := by
  have hread := State.readV_loadBlock s s.i.toNat x
  obtain ⟨v, hv⟩ := State.writeBlock_v_only s 0 ((List.range' s.i.toNat (x.val + 1)).map s.mem.read)
  rw [hv] at hread
  have hvec : v = nextV (.ldLoad x) s := Vector.ext fun k hk => by
    rw [nextV, Vector.getElem_ofFn]
    exact hread ⟨k, hk⟩
  rw [hv, hvec]

theorem exec_of_faultOf_eq_none {i : Instr} {s : State} (h : faultOf i s = none) : exec i s = .next (effect i s) := by
  obtain ⟨hmem, hop⟩ := faultOf_eq_none_iff.mp h
  cases i with
  | call n =>
    have hroom : s.sp.val < 16 := by simp [operandFault] at hop; omega
    have hstack : nextStack (.call n) s = s.stack.set s.sp.val s.pc hroom := Vector.ext fun k hk => by
      simp [nextStack, Vector.getElem_setIfInBounds, Vector.getElem_set]
    have hsp : nextSp (.call n) s = ⟨s.sp.val + 1, by omega⟩ := Fin.ext (min_eq_left hroom)
    rw [execCall_ok n s hroom, effect, hstack, hsp]
    rfl
  | ret => exact execRet_ok s (by simpa [operandFault] using hop)
  | addI x => exact execAddI_ok x s (by simpa [operandFault] using hop)
  | ldF x => exact execLdF_ok x s (by simpa [operandFault] using hop)
  | skp x =>
    have hkey : (s.readV x).toNat < 16 := by simpa [operandFault] using hop
    cases hk : s.keys.getLsbD (s.readV x).toNat with
    | false => rw [execSkp_notPressed x s hkey hk, effect, nextKeys, nextPc, hk]; rfl
    | true => rw [execSkp_pressed x s hkey hk, effect, nextKeys, nextPc, hk]; rfl
  | sknp x =>
    have hkey : (s.readV x).toNat < 16 := by simpa [operandFault] using hop
    cases hk : s.keys.getLsbD (s.readV x).toNat with
    | false => rw [execSknp_notPressed x s hkey hk, effect, nextKeys, nextPc, hk]; rfl
    | true => rw [execSknp_pressed x s hkey hk, effect, nextKeys, nextPc, hk]; rfl
  | ldVxK x =>
    by_cases hk : s.keys = 0
    · have hkeys : nextKeys (.ldVxK x) s = s.keys := hk.symm
      rw [execLdVxK_wait x s hk, effect, hkeys, nextV, nextPc, if_pos hk, if_pos hk]
      rfl
    · rw [execLdVxK_key x s hk, effect, nextV, nextPc, if_neg hk, if_neg hk]
      rfl
  | seImm x nn | sneImm x nn => exact skipIf_eq_next _ s
  | seReg x y | sneReg x y => exact skipIf_eq_next _ s
  | ldB x => exact execLdB_ok x s (hmem (Nat.succ_pos _))
  | ldStore x => exact execLdStore_ok x s (hmem (Nat.succ_pos _))
  | ldLoad x =>
    rw [execLdLoad_ok x s (hmem (Nat.succ_pos _)), State.writeBlock_load]
    rfl
  | drw x y n => exact execDrw_ok x y n s (n.toNat.eq_zero_or_pos.imp_right hmem)
  | _ => rfl

/-- An instruction that completes raises no fault, and leaves its effect. -/
theorem exec_eq_next_iff {i : Instr} {s t : State} : exec i s = .next t ↔ faultOf i s = none ∧ t = effect i s := by
  cases h : faultOf i s with
  | none => rw [exec_of_faultOf_eq_none h]; simp [eq_comm]
  | some e => rw [exec_of_faultOf_eq_some h]; simp

theorem exec_eq_fault_iff {i : Instr} {s : State} {e : Fault} : exec i s = .fault e ↔ faultOf i s = some e := by
  cases h : faultOf i s with
  | none => rw [exec_of_faultOf_eq_none h]; simp
  | some e' => rw [exec_of_faultOf_eq_some h]; simp

theorem exec_ne_refused (i : Instr) (s : State) (r : Refusal) : exec i s ≠ .refused r := by
  cases h : faultOf i s with
  | none => rw [exec_of_faultOf_eq_none h]; simp
  | some e => rw [exec_of_faultOf_eq_some h]; simp

/-! ### The registers and the parts that an instruction leaves unchanged (R12–R20) -/

theorem readV_effect {i : Instr} {s : State} {z : RegIdx} (hz : z ∉ registersWritten i) :
    (effect i s).readV z = s.readV z := by
  have hone : ∀ {x b}, z ∉ [x] → (s.writeV x b).readV z = s.readV z := fun hx =>
    State.readV_writeV_ne s _ z _ (by simpa using hx)
  have htwo : ∀ {x r f}, z ∉ [x, 15] → (s.writeResultFlag x r f).readV z = s.readV z := fun hx => by
    obtain ⟨hzx, hzF⟩ : z ≠ _ ∧ z ≠ 15 := by simpa using hx
    rw [State.readV_writeResultFlag, if_neg hzF, if_neg hzx]
  show (nextV i s)[z.val] = s.readV z
  cases i with
  | ldVxK x =>
    by_cases hk : s.keys = 0
    · simp only [nextV, if_pos hk]
      rfl
    · simp only [nextV, if_neg hk]
      exact hone hz
  | ldLoad x =>
    rw [nextV, Vector.getElem_ofFn]
    exact if_neg fun hle => hz (mem_upTo.mpr hle)
  | ldImm | addImm | ldReg | rnd | drw | ldVxDt => exact hone hz
  | orReg | andReg | xorReg | addReg | sub | shr | subn | shl => exact htwo hz
  | _ => rfl

theorem nextMem_eq {i : Instr} {s : State} (h : .memory ∉ partsWritten i) : nextMem i s = s.mem := by
  cases i with
  | ldB | ldStore => simp [partsWritten] at h
  | _ => rfl

theorem same_effect {i : Instr} {s : State} {p : Part} (hp : p ∉ partsWritten i) : p.Same s (effect i s) := by
  cases p with
  | index =>
    cases i with
    | ldI | addI | ldF | ldStore | ldLoad => simp [partsWritten] at hp
    | _ => rfl
  | stack =>
    cases i with
    | call => simp [partsWritten] at hp
    | _ => rfl
  | sp =>
    cases i with
    | call | ret => simp [partsWritten] at hp
    | _ => rfl
  | keys =>
    cases i with
    | skp | sknp | ldVxK => simp [partsWritten] at hp
    | _ => rfl
  | delay =>
    cases i with
    | ldDtVx => simp [partsWritten] at hp
    | _ => rfl
  | sound =>
    cases i with
    | ldStVx => simp [partsWritten] at hp
    | _ => rfl
  | display =>
    cases i with
    | cls | drw => simp [partsWritten] at hp
    | _ => rfl
  | memory => exact fun a => congrArg (Memory.read · a) (nextMem_eq hp)
  | draws =>
    cases i with
    | rnd => simp [partsWritten] at hp
    | _ => rfl
  | run | parameters => rfl

/-- The frame of every instruction: only the registers and the parts that it writes. -/
theorem Frame.effect (i : Instr) (s : State) :
    Frame (registersWritten i) (partsWritten i) (nextPc i s) s (effect i s) :=
  ⟨fun _ => readV_effect, fun _ => same_effect, rfl⟩

/-- An instruction keeps the latch or clears it whole (R17). -/
theorem nextKeys_eq (i : Instr) (s : State) : nextKeys i s = s.keys ∨ nextKeys i s = 0 := by
  cases i with
  | ldVxK x => exact .inr rfl
  | skp x | sknp x => exact (ite_eq_or_eq _ _ _).symm
  | _ => exact .inl rfl

/-! ### Parts of the state that an instruction does not read (R15–R20, R24) -/

/-- A change of the state that the fault of an instruction does not see, and that its effect carries along, commutes with the
instruction. -/
theorem exec_commute {f : State → State} {i : Instr} {s : State} (hfault : faultOf i (f s) = faultOf i s)
    (heffect : effect i (f s) = f (effect i s)) : exec i (f s) = onNext f (exec i s) := by
  cases h : faultOf i s with
  | none => rw [exec_of_faultOf_eq_none h, exec_of_faultOf_eq_none (hfault.trans h), heffect, onNext]
  | some e => rw [exec_of_faultOf_eq_some h, exec_of_faultOf_eq_some (hfault.trans h), onNext]

/-! ### The cause of a fault of a step (R140, R141) -/

/-- The fault that a fetched instruction raises has its cause. -/
theorem cause_of_faultOf {i : Instr} {s : State} {e : Fault} (hfetch : Fetches s i) (h : faultOf i s = some e) :
    e.Cause s := by
  unfold faultOf at h
  split at h
  case isTrue hout =>
    obtain ⟨hpos, hover⟩ := hout
    cases h
    exact ⟨i, hfetch, firstOutOfRange_iff.mpr ⟨hover, hpos, rfl⟩⟩
  case isFalse =>
    cases i with
    | call n =>
      obtain ⟨hfull, ⟨⟩⟩ := Option.ite_none_right_eq_some.mp h
      exact ⟨n, hfetch, hfull⟩
    | ret =>
      obtain ⟨hempty, ⟨⟩⟩ := Option.ite_none_right_eq_some.mp h
      exact ⟨hfetch, hempty⟩
    | addI x =>
      obtain ⟨hover, ⟨⟩⟩ := Option.ite_none_right_eq_some.mp h
      exact ⟨x, hfetch, rfl, hover⟩
    | ldF x =>
      obtain ⟨hdigit, ⟨⟩⟩ := Option.ite_none_right_eq_some.mp h
      exact ⟨x, hfetch, rfl, hdigit⟩
    | skp x =>
      obtain ⟨hkey, ⟨⟩⟩ := Option.ite_none_right_eq_some.mp h
      exact ⟨x, .inl hfetch, rfl, hkey⟩
    | sknp x =>
      obtain ⟨hkey, ⟨⟩⟩ := Option.ite_none_right_eq_some.mp h
      exact ⟨x, .inr hfetch, rfl, hkey⟩
    | _ => cases h

/-- A step raises the cause of the fault that it ends with. -/
theorem cause_of_step_eq_fault {s : State} {e : Fault} (h : step s = .fault e) : e.Cause s := by
  cases hrun : s.run with
  | faulted e' => cases (step_faulted hrun).symm.trans h
  | running =>
    by_cases hpc : 4095 ≤ s.pc.toNat
    · cases (step_outOfBounds hrun hpc).symm.trans h
      exact ⟨hrun, rfl, hpc⟩
    · have hpc' : s.pc.toNat ≤ 4094 := by omega
      obtain ⟨r, hr, hstep⟩ | ⟨i, hi, hstep⟩ := step_fetched hrun hpc'
      · cases hstep.symm.trans h
        refine ⟨hrun, hpc', ?_, (listedInvalid_of_rejected hr).2⟩
        rw [State.ofNat_opcodeAtPc, opcodeOfBytes_toNat, State.opcodeAtPc]
      · exact cause_of_faultOf ⟨hrun, hpc', hi⟩ (exec_eq_fault_iff.mp (hstep.symm.trans h))

/-- A step ends with each fault whose cause holds. -/
theorem step_eq_fault_of_cause {s : State} {e : Fault} (h : e.Cause s) : step s = .fault e := by
  have hfetched : ∀ {i}, Fetches s i → faultOf i s = some e → step s = .fault e := fun hfetch hfault =>
    (step_of_fetches hfetch).trans (exec_of_faultOf_eq_some hfault)
  cases e with
  | programTooLarge => exact h.elim
  | outOfBounds pc =>
    obtain ⟨hrun, rfl, hpc⟩ := h
    exact step_outOfBounds hrun hpc
  | invalidOpcode op =>
    obtain ⟨hrun, hpc, hop, hlisted⟩ := h
    exact invalidOpcodesAreTheListedOnes.2 s op hrun hpc hop hlisted
  | stackOverflow =>
    obtain ⟨n, hfetch, hfull⟩ := h
    exact hfetched hfetch (if_pos hfull)
  | stackUnderflow =>
    obtain ⟨hfetch, hempty⟩ := h
    exact hfetched hfetch (if_pos hempty)
  | memoryOutOfRange a =>
    obtain ⟨i, hfetch, hfirst⟩ := h
    obtain ⟨hover, hpos, rfl⟩ := firstOutOfRange_iff.mp hfirst
    exact hfetched hfetch (if_pos ⟨hpos, hover⟩)
  | indexOverflow sum =>
    obtain ⟨x, hfetch, rfl, hover⟩ := h
    exact hfetched hfetch (if_pos hover)
  | fontDigitOutOfRange d =>
    obtain ⟨x, hfetch, rfl, hdigit⟩ := h
    exact hfetched hfetch (if_pos hdigit)
  | keyIndexOutOfRange k =>
    obtain ⟨x, hfetch | hfetch, rfl, hkey⟩ := h
    · exact hfetched hfetch (if_pos hkey)
    · exact hfetched hfetch (if_pos hkey)

/-! ### The obligations -/

/-- Settles O7: a fetch, a decoding or an instruction faults on its cause, and on nothing else. -/
theorem everyFaultHasExactlyItsCause : Obligations.EveryFaultHasExactlyItsCause := fun _ _ =>
  ⟨cause_of_step_eq_fault, step_eq_fault_of_cause⟩

/-- Settles O8: the normal form of an instruction is a fault or a next state. -/
theorem noInstructionIsRefused : Obligations.NoInstructionIsRefused := exec_ne_refused

/-- Settles O40: the general registers after an instruction are written where R12 lists it. -/
theorem registersChangeOnlyWhereListed : Obligations.RegistersChangeOnlyWhereListed := by
  intro i s t h z hz
  obtain ⟨-, rfl⟩ := exec_eq_next_iff.mp h
  exact readV_effect hz

/-- Settles O41: each field after an instruction that does not write it is the field before. -/
theorem partsChangeOnlyWhereListed : Obligations.PartsChangeOnlyWhereListed := by
  intro i s t h p hp
  obtain ⟨-, rfl⟩ := exec_eq_next_iff.mp h
  exact same_effect hp

/-- Settles O42: the three instructions that write the latch write 0, or the latch as it was. -/
theorem instructionsOnlyClearTheLatch : Obligations.InstructionsOnlyClearTheLatch := by
  intro i s t h
  obtain ⟨-, rfl⟩ := exec_eq_next_iff.mp h
  exact nextKeys_eq i s

/-- Settles O43: neither the fault nor the effect of an instruction mentions the part, but for the instructions named. -/
theorem noOtherInstructionReadsAPart : Obligations.NoOtherInstructionReadsAPart := by
  refine fun i s => ⟨fun b hi => ?sound, fun b hi => ?delay, fun p k hret hcall => ?stack, fun d hcls hdrw => ?display,
    fun k hi => ?keys⟩
  case sound =>
    refine exec_commute (f := fun t => { t with st := b }) (by cases i <;> rfl) ?_
    cases i with
    | ldStVx x => exact absurd rfl (hi x)
    | _ => rfl
  case delay =>
    refine exec_commute (f := fun t => { t with dt := b }) (by cases i <;> rfl) ?_
    cases i with
    | ldVxDt x => exact absurd rfl (hi x).1
    | ldDtVx x => exact absurd rfl (hi x).2
    | _ => rfl
  case stack =>
    refine exec_commute (f := fun t => { t with sp := p, stack := k }) ?_ ?_
    · cases i with
      | ret => exact absurd rfl hret
      | call n => exact absurd rfl (hcall n)
      | _ => rfl
    · cases i with
      | ret => exact absurd rfl hret
      | call n => exact absurd rfl (hcall n)
      | _ => rfl
  case display =>
    refine exec_commute (f := fun t => { t with disp := d }) (by cases i <;> rfl) ?_
    cases i with
    | cls => exact absurd rfl hcls
    | drw x y n => exact absurd rfl (hdrw x y n)
    | _ => rfl
  case keys =>
    refine exec_commute (f := fun t => { t with keys := k }) (by cases i <;> rfl) ?_
    cases i with
    | skp x => exact absurd rfl (hi x).1
    | sknp x => exact absurd rfl (hi x).2.1
    | ldVxK x => exact absurd rfl (hi x).2.2
    | _ => rfl

end Sys2Proof.Machine
end

section
/-! Invariants and sequences of transactions (spec/10_state.md section 2, spec/60_exceptions.md sections 1 and 3): what a step
that completes and a transaction can do, what each of them keeps, and the proofs of the obligations about them. -/

namespace Sys2Proof.Machine

/-! ### A step that completes (R70–R74) -/

/-- A step that completes has fetched an instruction that raises no fault, and leaves its effect. -/
theorem effect_of_step_eq_next {s t : State} (h : step s = .next t) :
    ∃ i, Fetches s i ∧ faultOf i s = none ∧ t = effect i s := by
  cases hrun : s.run with
  | faulted e => cases (step_faulted hrun).symm.trans h
  | running =>
    by_cases hpc : 4095 ≤ s.pc.toNat
    · cases (step_outOfBounds hrun hpc).symm.trans h
    · have hpc' : s.pc.toNat ≤ 4094 := by omega
      obtain ⟨r, hr, hstep⟩ | ⟨i, hi, hstep⟩ := step_fetched hrun hpc'
      · cases hstep.symm.trans h
      · exact ⟨i, ⟨hrun, hpc', hi⟩, exec_eq_next_iff.mp (hstep.symm.trans h)⟩

/-! ### The invariant (R14, R15, R30) -/

theorem nextMem_wf {i : Instr} {s : State} (hwf : s.mem.wf = true) (h : faultOf i s = none) : (nextMem i s).wf = true := by
  have hfit := (faultOf_eq_none_iff.mp h).1
  cases i with
  | ldB x => exact Memory.writeAll_wf hwf (hfit (Nat.succ_pos _))
  | ldStore x => exact Memory.writeAll_wf hwf (s.regBlock_length x ▸ hfit (Nat.succ_pos _))
  | _ => exact hwf

/-- The farthest PC is that of BNNN: 0xFFF + 0xFF (R14, R79). -/
theorem nextPc_le {i : Instr} {s : State} (hpc : s.pc.toNat ≤ 4094) (hstack : ∀ k : Fin 16, s.stack[k.val].toNat ≤ 4094) :
    (nextPc i s).toNat ≤ 0x10FE := by
  have hnext : (s.pc + 2).toNat ≤ 0x10FE := by bv_omega
  have hskip : (s.pc + 4).toNat ≤ 0x10FE := by bv_omega
  cases i with
  | ret => exact (hstack ⟨s.sp.val - 1, by omega⟩).trans (by decide)
  | jp n | call n =>
    have := n.isLt
    rw [nextPc, zextAddr_toNat]
    omega
  | jpV0 n =>
    have := n.isLt
    have := (s.readV 0).isLt
    rw [nextPc, zextAddr_add_zextByte_toNat]
    omega
  | seImm | sneImm | seReg | sneReg | skp | sknp | ldVxK =>
    simp only [nextPc]
    split <;> omega
  | _ => exact hnext

theorem nextStack_le {i : Instr} {s : State} (hpc : s.pc.toNat ≤ 4094) (hstack : ∀ k : Fin 16, s.stack[k.val].toNat ≤ 4094)
    (k : Fin 16) : (nextStack i s)[k.val].toNat ≤ 4094 := by
  cases i with
  | call n =>
    rw [nextStack, Vector.getElem_setIfInBounds]
    split
    · exact hpc
    · exact hstack k
  | _ => exact hstack k

/-! ### A transaction (R148) -/

theorem State.run_cases (s : State) : s.run = .running ∨ ∃ e, s.run = .faulted e := by
  cases s.run with
  | running => exact .inl rfl
  | faulted e => exact .inr ⟨e, rfl⟩

/-- Everything that a transaction can do to the state: nothing, the start of a program, a step, a fault, or a write to the
latch and the timers. -/
theorem transact_cases (t : Transaction) (s : State) : (transact t s).1 = s ∨
    (∃ p, t = .init p ∧ p.length ≤ 3584 ∧ (transact t s).1 = { State.initial s.config p with draws := s.draws }) ∨
    step s = .next (transact t s).1 ∨
    (∃ e, step s = .fault e ∧ (transact t s).1 = s.takeFault e) ∨
    s.run = .running ∧ ∃ keys delay sound, (transact t s).1 = { s with keys := keys, dt := delay, st := sound } := by
  cases t with
  | init p =>
    by_cases hp : p.length ≤ 3584
    · exact .inr (.inl ⟨p, rfl, hp, congrArg Prod.fst (transact_init hp s)⟩)
    · exact .inl (congrArg Prod.fst (transact_init_tooLarge (Nat.lt_of_not_le hp) s))
  | step =>
    rw [transact, stepBlock]
    cases hstep : step s with
    | next u => exact .inr (.inr (.inl rfl))
    | fault e => exact .inr (.inr (.inr (.inl ⟨e, rfl, rfl⟩)))
    | refused r => exact .inl rfl
  | tickTimers =>
    obtain hrun | ⟨e, hrun⟩ := s.run_cases
    · exact .inr (.inr (.inr (.inr ⟨hrun, _, _, _, congrArg Prod.fst (transact_tickTimers hrun)⟩)))
    · exact .inl (by rw [transact, tickBlock, hrun])
  | pressKey k =>
    obtain hrun | ⟨e, hrun⟩ := s.run_cases
    · by_cases hk : k < 16
      · exact .inr (.inr (.inr (.inr ⟨hrun, _, _, _, congrArg Prod.fst (transact_pressKey hrun hk)⟩)))
      · exact .inl (congrArg Prod.fst (transact_pressKey_refused hrun (Nat.le_of_not_lt hk)))
    · exact .inl (by rw [transact, pressBlock, hrun])
  | readDisplay =>
    rw [transact, readDisplayBlock]
    cases s.run <;> exact .inl rfl
  | readTimers =>
    rw [transact, readTimersBlock]
    cases s.run <;> exact .inl rfl

/-- What each transaction of a list keeps, the list keeps. -/
theorem transactAll_keeps {P : State → Prop} {ts : List Transaction} (h : ∀ t ∈ ts, ∀ s, P s → P (transact t s).1) {s : State}
    (hs : P s) : P (transactAll ts s) := by
  induction ts generalizing s with
  | nil => exact hs
  | cons t ts ih =>
    obtain ⟨ht, hts⟩ := List.forall_mem_cons.mp h
    exact ih hts (ht s hs)

/-! ### The obligations about invariants -/

theorem State.Inv.initial (c : Config) {p : List Byte} (hp : p.length ≤ 3584) : (State.initial c p).Inv where
  memory := Memory.image_wf Vector.length_toList hp
  pc := by rw [State.initial_pc]; decide
  stack k := by simp

/-- Settles O44: the image of font and program is canonical, and every other field of a start state is written out. -/
theorem startStatesMeetTheInvariant : Obligations.StartStatesMeetTheInvariant :=
  ⟨fun c => ⟨rfl, Nat.zero_le _, fun k => by simp [State.created]⟩, fun c _ hp => .initial c hp,
    .initial defaultConfig (by decide)⟩

/-- Settles O45: the fetch bounds PC, and with that bound each field of the effect keeps its part of the invariant. -/
theorem stepKeepsTheInvariant : Obligations.StepKeepsTheInvariant := by
  intro s t hinv h
  obtain ⟨i, hfetch, hnone, rfl⟩ := effect_of_step_eq_next h
  exact ⟨nextMem_wf hinv.memory hnone, nextPc_le hfetch.inMemory hinv.stack, nextStack_le hfetch.inMemory hinv.stack⟩

/-- Settles O46: a transaction starts a program, steps, faults, or writes none of memory, PC and the stack. -/
theorem transactionsKeepTheInvariant : Obligations.TransactionsKeepTheInvariant := by
  refine fun ts s => transactAll_keeps (P := State.BlockInv) fun t _ s hs => ?_
  obtain h | ⟨p, -, hp, h⟩ | h | ⟨e, -, h⟩ | ⟨hrun, keys, delay, sound, h⟩ := transact_cases t s
  · rwa [h]
  · rw [h]
    obtain ⟨hmem, hpc, hstack⟩ := State.Inv.initial s.config hp
    exact fun _ => ⟨hmem, hpc, hstack⟩
  · obtain ⟨i, hfetch, -⟩ := effect_of_step_eq_next h
    exact fun _ => stepKeepsTheInvariant s _ (hs hfetch.running) h
  · rw [h]
    exact fun hrun => nomatch hrun
  · rw [h]
    obtain ⟨hmem, hpc, hstack⟩ := hs hrun
    exact fun _ => ⟨hmem, hpc, hstack⟩

/-- Settles O47: a start, a step and a fault all carry the parameters along. -/
theorem parametersNeverChange : Obligations.ParametersNeverChange := by
  refine fun ts s => transactAll_keeps (P := fun u => u.config = s.config) (fun t _ u hu => ?_) rfl
  obtain h | ⟨p, -, -, h⟩ | h | ⟨e, -, h⟩ | ⟨-, keys, delay, sound, h⟩ := transact_cases t u
  · rwa [h]
  · rwa [h]
  · obtain ⟨i, -, -, h⟩ := effect_of_step_eq_next h
    rwa [h]
  · rwa [h]
  · rwa [h]

/-! ### A block that has faulted (R142) -/

/-- Settles O53: a step of a faulted block is refused, and the other transactions but `initialize` write nothing on it. -/
theorem faultIsStickyUntilInitialize : Obligations.FaultIsStickyUntilInitialize := by
  intro e s hrun
  refine ⟨fun ts hinit => ?sticky, fun t ht => ?refused, fun p hp => ?init⟩
  case sticky =>
    refine transactAll_keeps (P := fun u => u.run = .faulted e) (fun t ht u hu => ?_) hrun
    have hstep := step_faulted hu
    obtain h | ⟨p, rfl, -⟩ | h | ⟨e', h, -⟩ | ⟨h, -⟩ := transact_cases t u
    · rwa [h]
    · exact absurd ht (hinit p)
    · cases hstep.symm.trans h
    · cases hstep.symm.trans h
    · cases hu.symm.trans h
  case refused =>
    obtain rfl | rfl | ⟨k, rfl⟩ := ht
    · rw [transact, stepBlock, step_faulted hrun]
    · rw [transact, tickBlock, hrun]
    · rw [transact, pressBlock, hrun]
  case init => rw [transact_init hp, State.initial_run]

/-! ### A step that waits (R132) -/

theorem step_of_waiting {s : State} {x : RegIdx} (hfetch : Fetches s (.ldVxK x)) (hkeys : s.keys = 0) : step s = .next s :=
  (step_of_fetches hfetch).trans (execLdVxK_wait x s hkeys)

theorem fetches_iff {s : State} {i : Instr} :
    Fetches s i ↔ s.run = .running ∧ ∃ op, s.fetch16 = .ok op ∧ decode op = .instr i := by
  constructor
  · rintro ⟨hrun, hpc, hdecode⟩
    rw [State.ofNat_opcodeAtPc] at hdecode
    exact ⟨hrun, _, State.fetch16_eq_ok.mpr ⟨Nat.lt_succ_of_le (Nat.succ_le_succ hpc), rfl⟩, hdecode⟩
  · rintro ⟨hrun, op, hfetch, hdecode⟩
    obtain ⟨hpc, rfl⟩ := State.fetch16_eq_ok.mp hfetch
    exact ⟨hrun, by omega, by rwa [State.ofNat_opcodeAtPc]⟩

/-- On a running block, the test that tells Waiting from Advanced is that FX0A is fetched and the latch is empty (R132). -/
theorem State.waits_iff {s : State} (hrun : s.run = .running) :
    s.waits = true ↔ (∃ x, Fetches s (.ldVxK x)) ∧ s.keys = 0 := by
  simp only [fetches_iff, hrun, true_and]
  unfold State.waits
  split
  case h_1 e hfetch => simp [hfetch]
  case h_2 op hfetch =>
    split
    case h_1 x hdecode => simp [hfetch, hdecode]
    case h_2 hother => simpa [hfetch] using fun x hx => absurd hx (hother x)

theorem transact_step_of_next {s t : State} (h : step s = .next t) :
    transact .step s = (t, if s.waits then .waiting else .advanced) := by
  rw [transact, stepBlock, h]

theorem transact_step_of_fault {s : State} {e : Fault} (h : step s = .fault e) :
    transact .step s = (s.takeFault e, .fault e) := by
  rw [transact, stepBlock, h]

theorem transact_step_of_refused {s : State} {r : Refusal} (h : step s = .refused r) :
    transact .step s = (s, .refused r) := by
  rw [transact, stepBlock, h]

/-- The answer Waiting is that of a fetched FX0A with an empty latch, and of nothing else (R70, R132). -/
theorem transact_step_eq_waiting_iff {s : State} :
    (transact .step s).2 = .waiting ↔ (∃ x, Fetches s (.ldVxK x)) ∧ s.keys = 0 := by
  constructor
  · intro h
    cases hstep : step s with
    | next t =>
      obtain ⟨i, hfetch, -⟩ := effect_of_step_eq_next hstep
      rw [transact_step_of_next hstep] at h
      exact (State.waits_iff hfetch.running).mp (by simpa using h)
    | fault e => rw [transact_step_of_fault hstep] at h; cases h
    | refused r => rw [transact_step_of_refused hstep] at h; cases h
  · rintro ⟨⟨x, hfetch⟩, hkeys⟩
    rw [transact_step_of_next (step_of_waiting hfetch hkeys),
      (State.waits_iff hfetch.running).mpr ⟨⟨x, hfetch⟩, hkeys⟩]
    rfl

/-! ### The first key pressed (R132, R150) -/

/-- After one press on an empty latch, the key pressed is the lowest one latched. -/
theorem lowestKey_setKey_zero {k : Nat} (hk : k < 16) : setKey 0 k ≠ 0 ∧ (lowestKey (setKey 0 k)).val = k := by
  have hbit : ∀ j, (setKey 0 k).getLsbD j = decide (j = k) := fun j => by simp [setKey_getLsbD hk]
  have hne : setKey 0 k ≠ 0 := fun h => by
    have := hbit k
    rw [h] at this
    simp at this
  have hset := (lowestKey_spec hne).1
  rw [hbit] at hset
  exact ⟨hne, of_decide_eq_true hset⟩

/-! ### The obligations about steps that wait -/

/-- Settles O52: the answer Waiting comes from a step that leaves the state as it is, and a step that faults takes the
fault. -/
theorem stepTransactionAnswers : Obligations.StepTransactionAnswers := by
  refine fun s => ⟨transact_step_eq_waiting_iff, fun hwaiting => ?_, fun t hstep => ?_, fun e hstep => ?_⟩
  · obtain ⟨⟨x, hfetch⟩, hkeys⟩ := transact_step_eq_waiting_iff.mp hwaiting
    rw [transact_step_of_next (step_of_waiting hfetch hkeys)]
  · rw [transact_step_of_next hstep]
    exact ⟨rfl, (ite_eq_or_eq _ _ _).symm⟩
  · rw [transact_step_of_fault hstep]
    exact ⟨rfl, rfl⟩

/-- Settles O54: a step that waits leads to the same state, and a press leaves what is fetched as it is. -/
theorem waitingEndsAtAKeyPress : Obligations.WaitingEndsAtAKeyPress := by
  refine fun x s hfetch hkeys => ⟨fun n => ?_, fun k hk => ?_⟩
  · have hstep : Sys2Proof.core.step s = .next s := step_of_waiting hfetch hkeys
    induction n with
    | zero => rfl
    | succ n ih => simpa only [Host.Core.run, hstep] using ih
  · obtain ⟨hne, hlowest⟩ := lowestKey_setKey_zero hk
    rw [transact_pressKey hfetch.running hk, hkeys]
    have hpressed : Fetches { s with keys := setKey 0 k } (.ldVxK x) := ⟨hfetch.running, hfetch.inMemory, hfetch.decodes⟩
    refine ⟨_, (step_of_fetches hpressed).trans (execLdVxK_key x _ hne), ?_, rfl, rfl⟩
    rw [State.readV_advance, State.readV_writeV_same, lowestKey_byte_toNat, hlowest]

end Sys2Proof.Machine
end

section
/-! Instructions one after another (spec/70_reset_and_hazards.md section 3, spec/42_memory_ops.md, spec/43_display.md), the
carry of 8XY4 (spec/41_alu.md section 6) and the free draw of CXNN (section 5): the proofs of the obligations about them. -/

namespace Sys2Proof.Machine

/-! ### A CALL and its RET (R77, R78, R172) -/

theorem Part.Same.trans {p : Part} {s t u : State} (h : p.Same s t) (h' : p.Same t u) : p.Same s u := by
  cases p with
  | memory => exact fun a => (h' a).trans (h a)
  | _ => exact Eq.trans h' h

/-- Settles O13: RET pops the slot that CALL has pushed, which holds the address of the CALL. -/
theorem retReturnsToTheCallItself : Obligations.RetReturnsToTheCallItself := by
  intro n s hroom
  obtain ⟨t, hcall, hframe, hsp, htop, hslots⟩ := ((callPushesItsOwnAddress n).2 s).1 hroom
  obtain ⟨u, hret, hsp', htop', hframe'⟩ := (retPopsTheCallAddress.2 t).1 (by omega)
  refine ⟨t, u, hcall, hret, ⟨fun z hz => (hframe'.regs z hz).trans (hframe.regs z hz), fun p hp => ?_, ?_⟩, fun k hk => ?_⟩
  · by_cases hpsp : p = .sp
    · subst hpsp
      exact Fin.ext (by omega)
    · exact (hframe.parts p (by simpa [hpsp] using hp)).trans (hframe'.parts p (by simpa using hpsp))
  · exact Option.some.inj (htop'.symm.trans htop)
  · have hstack : u.stack = t.stack := hframe'.parts .stack (by decide)
    have hslot : u.slot k = t.slot k := by rw [State.slot, State.slot, hstack]
    exact hslot.trans (hslots k (hsp ▸ hk))

/-! ### The carry of 8XY4 (R97, R103) -/

/-- Settles O21: the wrapped sum of two bytes is less than the smaller of them exactly when the sum is at least 256. -/
theorem addFlagIsTheCarry : Obligations.AddFlagIsTheCarry := by
  intro x y s t h
  obtain ⟨t', hnext, -, -, hflag⟩ := (addSetsVfByTheWrappedSum x y).2 s
  cases h.symm.trans hnext
  have := (s.readV x).isLt
  have := (s.readV y).isLt
  rw [← BitVec.toNat_inj, ← BitVec.toNat_inj, hflag]
  split <;> simp <;> omega

/-! ### The free draw (R102) -/

theorem decode_wordXNN_rnd (x : RegIdx) (nn : Byte) : decode (wordXNN 0xC x nn.toNat) = .instr (.rnd x nn) := by
  simp [wordXNN_eq, decode]

/-- Settles O24: RND writes one register and the counter, and the bits of the draw are masked one by one. -/
theorem rndMasksAFreeDraw : Obligations.RndMasksAFreeDraw := by
  refine fun x nn => ⟨decode_wordXNN_rnd x nn, fun s =>
    ⟨_, exec_of_faultOf_eq_none rfl, Frame.effect (.rnd x nn) s, rfl, fun k => ?_⟩⟩
  have hvalue : (effect (.rnd x nn) s).readV x = Config.randomDraw s.draws &&& nn := State.readV_writeV_same s x _
  rw [hvalue, BitVec.getLsbD_and]

/-! ### A stored block read again (R43, R114, R115, R171) -/

/-- FX55 that completes has stored V0 to Vx, all inside memory. -/
theorem stored_of_execLdStore {x : RegIdx} {s t : State} (hwf : s.mem.wf = true) (h : exec (.ldStore x) s = .next t) :
    effectiveAddr s.i x.val < 4096 ∧ ∀ k, k ≤ x → t.mem.read (effectiveAddr s.i k.val) = s.readV k := by
  have hin : effectiveAddr s.i x.val < 4096 := by
    by_contra hout
    cases h.symm.trans (execLdStore_fault x s (Nat.le_of_not_lt hout))
  obtain ⟨t', hnext, -, -, hstored, -⟩ := ((ldStoreStoresTheBlock x).2 s hwf).1 hin
  cases h.symm.trans hnext
  exact ⟨hin, hstored⟩

/-- Settles O31: FX65 loads the bytes that FX55 has stored, and loading does not look at the registers. -/
theorem storeThenLoadGivesTheRegistersBack : Obligations.StoreThenLoadGivesTheRegistersBack := by
  intro x s t hwf h v
  obtain ⟨hin, hstored⟩ := stored_of_execLdStore hwf h
  obtain ⟨u, hload, -, -, hloaded⟩ := ((ldLoadLoadsTheBlock x).2 { t with i := s.i, v := v }).1 hin
  exact ⟨u, hload, fun k hk => (hloaded k hk).trans (hstored k hk)⟩

/-- Settles O32: the fetch reads two stored bytes, and memory is all that stands between the store and the fetch. -/
theorem storedBytesAreFetched : Obligations.StoredBytesAreFetched := by
  intro x k s t hwf h hk hpc
  obtain ⟨hin, hstored⟩ := stored_of_execLdStore hwf h
  have hlt : k.val < x.val := hk
  have hsucc : (k + 1).val = k.val + 1 := Fin.val_add_one_of_lt' (by omega)
  have hpc' : t.pc.toNat + 1 = effectiveAddr s.i (k + 1).val := by rw [hpc, hsucc]; rfl
  have hle : k + 1 ≤ x := Fin.le_def.mpr (by omega)
  have hfetch : t.fetch16 = .ok (opcodeOfBytes (s.readV k) (s.readV (k + 1))) := by
    refine State.fetch16_eq_ok.mpr ⟨?_, ?_⟩
    · rw [hpc]
      unfold effectiveAddr at hin ⊢
      omega
    · rw [hpc', hpc, hstored k hk.le, hstored (k + 1) hle]
  refine ⟨_, hfetch, opcodeOfBytes_toNat _ _, fun i hrun hdecode => ?_⟩
  have hrun' : t.run = s.run := partsChangeOnlyWhereListed _ s t h .run (by simp [partsWritten])
  exact step_of_fetches (fetches_iff.mpr ⟨hrun'.trans hrun, _, hfetch, hdecode⟩)

/-! ### A sprite drawn twice (R121) -/

/-- The same sprite XORed twice onto the same place is XORed away. -/
theorem Display.drawSprite_twice (d : Display) (oy ox : Nat) (sprite : List Byte) :
    ((d.drawSprite oy ox sprite).1.drawSprite oy ox sprite).1 = d :=
  Display.ext_pixel fun r c hr hc => by
    rw [Display.pixel_drawSprite _ _ _ _ hr hc, Display.pixel_drawSprite _ _ _ _ hr hc, Bool.xor_assoc, Bool.xor_self,
      Bool.xor_false]

theorem flagByte_eq_one_iff (c : Bool) : flagByte c = 1 ↔ c = true := by
  cases c <;> decide

/-- Settles O35: the second draw XORs the same sprite onto the same place, and it turns off what the first has turned on. -/
theorem drawingTwiceRestoresTheDisplay : Obligations.DrawingTwiceRestoresTheDisplay := by
  intro x y n s t h hx hy
  obtain ⟨hnone, rfl⟩ := exec_eq_next_iff.mp h
  have hagain : ((effect (.drw x y n) s).drawn x y n).1 = s.disp := by
    rw [State.drawn, hx, hy]
    exact Display.drawSprite_twice _ _ _ _
  refine ⟨_, exec_of_faultOf_eq_none hnone, hagain, ?_⟩
  have hflag : (effect (.drw x y n) (effect (.drw x y n) s)).readV 15 =
      flagByte ((effect (.drw x y n) s).drawn x y n).2 := State.readV_writeV_same _ _ _
  rw [hflag, flagByte_eq_one_iff, State.erased_drawn, hagain]
  exact exists₂_congr fun r c => and_congr_right fun _ => and_congr_right fun _ => and_comm

end Sys2Proof.Machine
end
